-- ==== Sys2Proof/Word.lean ====
section
/-! DEFINITION. The word types of PulseCodec (00_scope.md R5) and the two small name types its operands use. -/

namespace Sys2Proof

/-- A host data word, a command word, a duration, a length: `XLEN = DUR_W = LEN_W = 32` (R5). -/
abbrev Word := BitVec 32

/-- A host word address: `AW = 7` (R5, R40). -/
abbrev Addr := BitVec 7

/-- A unit code: `NBITS = 24` (R5, R135). -/
abbrev UnitCode := BitVec 24

/-- The source's `state`, "enum {on, off}" (R64). Its one-bit code is `DevState.bit`. -/
inductive DevState where
  | off
  | on
  deriving DecidableEq, Repr

/-- The two registers that are read-only to the host (R158). -/
inductive ReadOnlyReg where
  | status
  | result
  deriving DecidableEq, Repr

end Sys2Proof
end

