-- ==== Sys2Proof/Config.lean ====
section
/-! DEFINITION. What the spec leaves open: the parameter PULSE_DIV and the contents of PBUF after reset. Both are
constants without a body, so no proof can see a value of them. -/

namespace Sys2Proof

/-- `OPEN: PULSE_DIV` (00_scope.md R6, 93_implementation_defined.md U5): a 16-bit unsigned parameter, no value given.
`State.reset` carries it into every run; statements quantify over the field `pulseDiv` of the state.
DESIGN CHOICE, safe (log 2). -/
opaque Config.pulseDiv : BitVec 16

/-- FREE VALUE. `Config.pbufAtReset n i` is what entry `i` of PBUF holds after the reset number `n` of a run
(`n = 0`: the reset the run starts from). "each entry holds some 32-bit value the spec does not fix"
(10_state.md R32, 93_implementation_defined.md U1). DESIGN CHOICE of form, safe (log 1). -/
opaque Config.pbufAtReset : Nat → Nat → Word

end Sys2Proof
end

