-- ==== Sys2Proof/Syntax.lean ====
section
/-! DEFINITION. The instructions of PulseCodec: one constructor per row of spec/opcode_table.json. -/

namespace Sys2Proof

/-- The three commands (format CMD) and the ten kinds of host access (format BUS). Every one of them reaches the
block as one host access; the three commands are the writes to CMD whose word is legal (30_encoding.md R67, R68). -/
inductive Instr where
  /-- VALIDATE (R103). -/
  | validate
  /-- DECODE (R114). -/
  | decode
  /-- ENCODE (R134), operands as they stand in the command word (R62): UP, SP, ST, UC. -/
  | encode (up sp : Bool) (st : DevState) (uc : UnitCode)
  /-- Write PBUF[i] (R150). -/
  | wrPbuf (i : Fin 52) (wdata : Word)
  /-- Read PBUF[i] (R151). -/
  | rdPbuf (i : Fin 52)
  /-- Write PLEN (R152). -/
  | wrPlen (wdata : Word)
  /-- Read PLEN (R153). -/
  | rdPlen
  /-- Write CMD with the word `w` (R154). -/
  | wrCmd (w : Word)
  /-- Read CMD (R155). -/
  | rdCmd
  /-- Read STATUS (R156). -/
  | rdStatus
  /-- Read RESULT (R157). -/
  | rdResult
  /-- Write STATUS or RESULT (R158). -/
  | wrStatusResult (reg : ReadOnlyReg) (wdata : Word)
  /-- Access a reserved address (R159), a write if `we`. -/
  | reservedAddress (we : Bool) (addr : Addr) (wdata : Word)
  deriving DecidableEq, Repr

end Sys2Proof
end

