-- ==== Sys2Proof/WellFormed.lean ====
section
/-! DEFINITION. Which instructions are written in their one proper form. -/

namespace Sys2Proof

/-- The legal command words (30_encoding.md R63): the three match and mask pairs of the table. -/
def isCommandWord (w : Word) : Bool :=
  w == 0x10000000#32 || w == 0x20000000#32 || (w &&& 0xF8000000#32) == 0x30000000#32

/-- The reserved addresses `0x34`–`0x3F` and `0x44`–`0x7F` (20_memory.md R42). -/
def isReservedAddr (a : Addr) : Bool :=
  (decide (0x34 ≤ a.toNat) && decide (a.toNat ≤ 0x3F)) || decide (0x44 ≤ a.toNat)

/-- An instruction is well-formed when its operands are those of its own row: `wrCmd` carries no legal command word
(such a write IS the command, R68; log 7), `reservedAddress` carries a reserved address. The index of `wrPbuf` and
`rdPbuf` is below 52 by its type. -/
def Instr.wellFormed : Instr → Bool
  | .validate => true
  | .decode => true
  | .encode _ _ _ _ => true
  | .wrPbuf _ _ => true
  | .rdPbuf _ => true
  | .wrPlen _ => true
  | .rdPlen => true
  | .wrCmd w => !isCommandWord w
  | .rdCmd => true
  | .rdStatus => true
  | .rdResult => true
  | .wrStatusResult _ _ => true
  | .reservedAddress _ a _ => isReservedAddr a

end Sys2Proof
end

