-- ==== Sys2Proof/Decode.lean ====
section
/-! DEFINITION. Decoding and encoding: command words (30_encoding.md R61 to R67), host accesses (R60), the opcode
table's patterns, and the numbering spec/opcode_table.json gives the bits. -/

namespace Sys2Proof

/-! ## Bus addresses (20_memory.md R42) -/

def addrPLEN : Addr := 0x40#7
def addrCMD : Addr := 0x41#7
def addrSTATUS : Addr := 0x42#7
def addrRESULT : Addr := 0x43#7

/-- Address `i` is `PBUF[i]` (R42). -/
def addrPBUF (i : Fin 52) : Addr := BitVec.ofNat 7 i.val

/-! ## Command words -/

/-- Fields of a command word (R62). -/
def cmdOP (w : Word) : BitVec 4 := w.extractLsb' 28 4
def cmdZ27 (w : Word) : Bool := w.getLsbD 27
def cmdUP (w : Word) : Bool := w.getLsbD 26
def cmdSP (w : Word) : Bool := w.getLsbD 25
def cmdST (w : Word) : Bool := w.getLsbD 24
def cmdUC (w : Word) : UnitCode := w.extractLsb' 0 24

/-- Code of the state operand (R64): 0 = off, 1 = on. -/
def DevState.ofBit (b : Bool) : DevState := if b then .on else .off
def DevState.bit : DevState → Bool
  | .off => false
  | .on => true

/-- A legal command (R63). -/
inductive Command where
  | validate
  | decode
  | encode (up sp : Bool) (st : DevState) (uc : UnitCode)
  deriving DecidableEq, Repr

/-- Why a command word is illegal: the three cases (a), (b), (c) of R65. -/
inductive IllegalWord where
  /-- (a) `OP` is `0x0` or `0x4`–`0xF`. -/
  | opcode
  /-- (b) VALIDATE or DECODE with one of bits 27:0 set. -/
  | reservedBits
  /-- (c) ENCODE with bit 27 set. -/
  | bit27
  deriving DecidableEq, Repr

/-- The reason an illegal word is rejected for, read from its opcode (R65). -/
def illegalReason (w : Word) : IllegalWord :=
  if cmdOP w = 1#4 ∨ cmdOP w = 2#4 then .reservedBits
  else if cmdOP w = 3#4 then .bit27
  else .opcode

/-- The decoding procedure of R67, its arms tried in that order; total. -/
def decodeCommand (w : Word) : Except IllegalWord Command :=
  if w = 0x10000000#32 then .ok .validate
  else if w = 0x20000000#32 then .ok .decode
  else if cmdOP w = 3#4 ∧ cmdZ27 w = false then
    .ok (.encode (cmdUP w) (cmdSP w) (.ofBit (cmdST w)) (cmdUC w))
  else .error (illegalReason w)

/-- Bits 31:24 of an ENCODE command word (R62): OP, Z27, UP, SP, ST. -/
def encodeHeader (up sp : Bool) (st : DevState) : BitVec 8 :=
  0x3#4 ++ (BitVec.ofBool false ++ (BitVec.ofBool up ++ (BitVec.ofBool sp ++ BitVec.ofBool st.bit)))

/-- The command word of a command (R62, R63, R68). -/
def encodeCommand : Command → Word
  | .validate => 0x10000000#32
  | .decode => 0x20000000#32
  | .encode up sp st uc => encodeHeader up sp st ++ uc

/-- The command as an instruction. -/
def Command.toInstr : Command → Instr
  | .validate => .validate
  | .decode => .decode
  | .encode up sp st uc => .encode up sp st uc

/-! ## Host accesses -/

/-- A host access, format BUS (R60): `we` 1 = write; `wdata` is ignored on a read. -/
structure Access where
  we : Bool
  addr : Addr
  wdata : Word
  deriving DecidableEq, Repr

/-- Decode a host access by the map of R42 and the table of R60. Total: no access is without a meaning (R160). A write
to CMD is decoded into the command its word stands for, or into `wrCmd` where the word is illegal (R67, R68; log 7). -/
def decodeAccess (a : Access) : Instr :=
  if h : a.addr.toNat < 52 then
    if a.we then .wrPbuf ⟨a.addr.toNat, h⟩ a.wdata else .rdPbuf ⟨a.addr.toNat, h⟩
  else if a.addr = addrPLEN then
    if a.we then .wrPlen a.wdata else .rdPlen
  else if a.addr = addrCMD then
    if a.we then
      match decodeCommand a.wdata with
      | .ok c => c.toInstr
      | .error _ => .wrCmd a.wdata
    else .rdCmd
  else if a.addr = addrSTATUS then
    if a.we then .wrStatusResult .status a.wdata else .rdStatus
  else if a.addr = addrRESULT then
    if a.we then .wrStatusResult .result a.wdata else .rdResult
  else .reservedAddress a.we a.addr a.wdata

/-- Address of a read-only register (R42). -/
def ReadOnlyReg.addr : ReadOnlyReg → Addr
  | .status => addrSTATUS
  | .result => addrRESULT

/-- The host access an instruction is (R60, R68); a read carries the ignored `wdata` 0. -/
def encodeAccess : Instr → Access
  | .validate => ⟨true, addrCMD, encodeCommand .validate⟩
  | .decode => ⟨true, addrCMD, encodeCommand .decode⟩
  | .encode up sp st uc => ⟨true, addrCMD, encodeCommand (.encode up sp st uc)⟩
  | .wrPbuf i d => ⟨true, addrPBUF i, d⟩
  | .rdPbuf i => ⟨false, addrPBUF i, 0#32⟩
  | .wrPlen d => ⟨true, addrPLEN, d⟩
  | .rdPlen => ⟨false, addrPLEN, 0#32⟩
  | .wrCmd w => ⟨true, addrCMD, w⟩
  | .rdCmd => ⟨false, addrCMD, 0#32⟩
  | .rdStatus => ⟨false, addrSTATUS, 0#32⟩
  | .rdResult => ⟨false, addrRESULT, 0#32⟩
  | .wrStatusResult r d => ⟨true, r.addr, d⟩
  | .reservedAddress we a d => ⟨we, a, d⟩

/-! ## The opcode table's rows -/

/-- One `BUS` row: its mnemonic and its alternatives, each a mask and a match over `{we, addr[6:0]}` (R60). -/
structure BusRow where
  mnemonic : String
  alternatives : List (BitVec 8 × BitVec 8)
  deriving DecidableEq, Repr

/-- The ten `BUS` rows of spec/opcode_table.json, in its order. -/
def busTable : List BusRow :=
  [ ⟨"WR_PBUF+i", [(0xE0#8, 0x80#8), (0xF0#8, 0xA0#8), (0xFC#8, 0xB0#8)]⟩,
    ⟨"RD_PBUF+i", [(0xE0#8, 0x00#8), (0xF0#8, 0x20#8), (0xFC#8, 0x30#8)]⟩,
    ⟨"WR_PLEN", [(0xFF#8, 0xC0#8)]⟩,
    ⟨"RD_PLEN", [(0xFF#8, 0x40#8)]⟩,
    ⟨"WR_CMD", [(0xFF#8, 0xC1#8)]⟩,
    ⟨"RD_CMD", [(0xFF#8, 0x41#8)]⟩,
    ⟨"RD_STATUS", [(0xFF#8, 0x42#8)]⟩,
    ⟨"RD_RESULT", [(0xFF#8, 0x43#8)]⟩,
    ⟨"WR_STATUS_RESULT", [(0xFE#8, 0xC2#8)]⟩,
    ⟨"RESERVED_ADDRESS", [(0x7C#8, 0x34#8), (0x78#8, 0x38#8), (0x7C#8, 0x44#8), (0x78#8, 0x48#8),
      (0x70#8, 0x50#8), (0x60#8, 0x60#8)]⟩ ]

/-- The three `CMD` rows of spec/opcode_table.json: mnemonic, mask, match (R63). -/
def commandTable : List (String × Word × Word) :=
  [ ("VALIDATE", 0xFFFFFFFF#32, 0x10000000#32),
    ("DECODE", 0xFFFFFFFF#32, 0x20000000#32),
    ("ENCODE", 0xF8000000#32, 0x30000000#32) ]

/-- The 8-bit pattern `{we, addr[6:0]}` of an access (R60). -/
def Access.pattern (a : Access) : BitVec 8 := BitVec.ofBool a.we ++ a.addr

/-- The mnemonics of the `BUS` rows a pattern matches. -/
def busRowsMatching (p : BitVec 8) : List String :=
  (busTable.filter fun r => r.alternatives.any fun mm => (p &&& mm.1) == mm.2).map BusRow.mnemonic

/-- The mnemonics of the `CMD` rows a command word matches. -/
def commandRowsMatching (w : Word) : List String :=
  (commandTable.filter fun r => (w &&& r.2.1) == r.2.2).map fun r => r.1

/-- An instruction's row of spec/opcode_table.json. -/
def Instr.mnemonic : Instr → String
  | .validate => "VALIDATE"
  | .decode => "DECODE"
  | .encode _ _ _ _ => "ENCODE"
  | .wrPbuf _ _ => "WR_PBUF+i"
  | .rdPbuf _ => "RD_PBUF+i"
  | .wrPlen _ => "WR_PLEN"
  | .rdPlen => "RD_PLEN"
  | .wrCmd _ => "WR_CMD"
  | .rdCmd => "RD_CMD"
  | .rdStatus => "RD_STATUS"
  | .rdResult => "RD_RESULT"
  | .wrStatusResult _ _ => "WR_STATUS_RESULT"
  | .reservedAddress _ _ _ => "RESERVED_ADDRESS"

/-- The `BUS` row of the access an instruction is: a command is a write to CMD (R68). -/
def Instr.busMnemonic : Instr → String
  | .validate => "WR_CMD"
  | .decode => "WR_CMD"
  | .encode _ _ _ _ => "WR_CMD"
  | .wrPbuf i d => (Instr.wrPbuf i d).mnemonic
  | .rdPbuf i => (Instr.rdPbuf i).mnemonic
  | .wrPlen d => (Instr.wrPlen d).mnemonic
  | .rdPlen => Instr.rdPlen.mnemonic
  | .wrCmd w => (Instr.wrCmd w).mnemonic
  | .rdCmd => Instr.rdCmd.mnemonic
  | .rdStatus => Instr.rdStatus.mnemonic
  | .rdResult => Instr.rdResult.mnemonic
  | .wrStatusResult r d => (Instr.wrStatusResult r d).mnemonic
  | .reservedAddress we a d => (Instr.reservedAddress we a d).mnemonic

/-! ## The table's numbering of bits (log 8) -/

/-- The host access a numbered word of spec/opcode_table.json stands for. A `CMD` row numbers the 32 bits of a command
word, which the host writes to CMD (R62). A `BUS` row numbers the pattern `{we, addr[6:0]}` as bits 7:0 and gives
`wdata` no bits; the access is read as the 40-bit number `{wdata, we, addr}`. -/
def tableAccess (nbits w : Nat) : Access :=
  if nbits = 32 then ⟨true, addrCMD, BitVec.ofNat 32 w⟩
  else ⟨w.testBit 7, BitVec.ofNat 7 w, BitVec.ofNat 32 (w / 2 ^ 8)⟩

/-- The instruction the decoder reads from a numbered word. It is never `none`: no access is refused (R160), and a
write of an illegal command word is WR_CMD, which raises ILLEGAL_COMMAND. -/
def decodeTableWord (nbits w : Nat) : Option Instr :=
  some (decodeAccess (tableAccess nbits w))

end Sys2Proof
end

