-- ==== Sys2Proof/Machine/State.lean ====
section
/-! DEFINITION. The machine's state as plain data, its reset value, and the reasons a step can stop. -/

namespace Sys2Proof.Machine

open Sys2Proof

/-- The pulse buffer: `CAP = 52` entries of 32 bits (10_state.md R22). -/
abbrev Pbuf := Vector Word 52

/-- The complete architectural state of the block (10_state.md R21). -/
structure Block where
  /-- PBUF, addresses `0x00`–`0x33` (R22). -/
  pbuf : Pbuf
  /-- PLEN, address `0x40` (R23). -/
  plen : Word
  /-- STATUS, address `0x42` (R24); its fields are the accessors of Machine/Flags.lean. -/
  status : Word
  /-- RESULT, address `0x43` (R25); its fields are the accessors of Machine/Flags.lean. -/
  result : Word
  deriving DecidableEq, Repr

/-- What can happen to the block from outside: a host access, or the reset input (70_reset_and_hazards.md R220). -/
inductive Event where
  | access (a : Access)
  | reset
  deriving DecidableEq, Repr

/-- The block with its surroundings: `toBlock` is the block's state (R21); the other fields are the model's own. -/
structure State extends Block where
  /-- The static input PULSE_DIV (R6, R29): configuration that no step changes (log 2). -/
  pulseDiv : BitVec 16
  /-- What the host will do next, first event first (R20, R48; log 3). -/
  pending : List Event
  /-- The `rdata` words host reads have returned, latest first (R41, R60; log 5). -/
  reads : List Word
  /-- How often reset was asserted in this run: the counter of the free values of PBUF (log 1, log 6). -/
  resets : Nat
  deriving DecidableEq, Repr

/-- No host access and no command faults (44_host_access.md R160, 60_exceptions.md R196): there is no reason for a
fault, nobody raises one. An error of the block is a result value in STATUS (log 12). -/
inductive Fault
  deriving DecidableEq, Repr

/-- Reasons a step is refused. -/
inductive Refusal where
  /-- Raised only by an arm of `exec` whose instruction has no meaning yet. Safe: the machine stops. No arm raises it
  now. -/
  | notModelled (mnemonic : String)
  deriving DecidableEq, Repr

/-- The unspecified contents of PBUF after the reset number `n` of a run (R32): free values (log 1). -/
def unspecifiedPbuf (n : Nat) : Pbuf :=
  ⟨((List.range 52).map (Config.pbufAtReset n)).toArray, by simp⟩

/-- The machine right after reset (10_state.md R32, 70_reset_and_hazards.md R220). The host has done nothing yet. -/
def State.reset : State where
  pbuf := unspecifiedPbuf 0
  plen := 0#32
  status := 0#32
  result := 0#32
  pulseDiv := Config.pulseDiv
  pending := []
  reads := []
  resets := 0

end Sys2Proof.Machine
end

