-- ==== Sys2Proof/Machine/Flags.lean ====
section
/-! DEFINITION. The fields of STATUS (10_state.md R24) and RESULT (R25), and the words the commands write there. -/

namespace Sys2Proof.Machine

open Sys2Proof

/-- The error of a command (60_exceptions.md R190). -/
inductive ErrCode where
  | none
  | invalidFrame
  | missingField
  | illegalCommand
  deriving DecidableEq, Repr

/-- The code of an error in STATUS.ERR (R190). -/
def ErrCode.code : ErrCode → BitVec 4
  | .none => 0#4
  | .invalidFrame => 1#4
  | .missingField => 2#4
  | .illegalCommand => 3#4

/-- The STATUS word of a completed command (R24): DONE is 1, bits 3:2 and 31:12 are 0. -/
def statusWord (lastop : BitVec 4) (err : ErrCode) (vok : Bool) : Word :=
  0#20 ++ (lastop ++ (err.code ++ (0#2 ++ (BitVec.ofBool vok ++ BitVec.ofBool true))))

def statusDONE (w : Word) : Bool := w.getLsbD 0
def statusVOK (w : Word) : Bool := w.getLsbD 1
def statusERR (w : Word) : BitVec 4 := w.extractLsb' 4 4
def statusLASTOP (w : Word) : BitVec 4 := w.extractLsb' 8 4

/-- A field set: the source's mapping with keys `unitcode` and `state` (R25, 42_decode.md R113). -/
structure FieldSet where
  unitcode : UnitCode
  state : DevState
  deriving DecidableEq, Repr

/-- The RESULT word that holds a field set (R25): FVALID is 1, bits 30:25 are 0. -/
def resultWord (f : FieldSet) : Word :=
  BitVec.ofBool true ++ (0#6 ++ (BitVec.ofBool f.state.bit ++ f.unitcode))

/-- The RESULT word after a failed DECODE (R25, R114): FVALID is 0 and there is no field set. -/
def noFieldSet : Word := 0x00000000#32

def resultUNITCODE (w : Word) : UnitCode := w.extractLsb' 0 24
def resultSTATE (w : Word) : DevState := .ofBit (w.getLsbD 24)
def resultFVALID (w : Word) : Bool := w.getLsbD 31

end Sys2Proof.Machine
end

