-- ==== Sys2Proof/Machine/Comparator.lean ====
section
/-! DEFINITION. The protocol constants and the protocol-constant comparator (40_comparator.md). All arithmetic is on
naturals (00_scope.md R7, R86). -/

namespace Sys2Proof.Machine

/-! ## Primary constants (R80) -/

def MIN_PULSE_LENGTH : Nat := 450
def MAX_PULSE_LENGTH : Nat := 500
def AVG_PULSE_LENGTH : Nat := 475
def RAW_LENGTH : Nat := 52
def PULSE_MULTIPLIER : Nat := 3

/-! ## Derived constants (R81, R82) -/

def LEN_RX : Nat := RAW_LENGTH - 1
def LEN_TX : Nat := RAW_LENGTH
def V_LO (div : Nat) : Nat := MIN_PULSE_LENGTH * div
def V_HI (div : Nat) : Nat := MAX_PULSE_LENGTH * div
def B_LO : Nat := MIN_PULSE_LENGTH * 6
def B_HI : Nat := MAX_PULSE_LENGTH * 6
def T_SHORT : Nat := AVG_PULSE_LENGTH * 2
def T_LOW : Nat := AVG_PULSE_LENGTH * PULSE_MULTIPLIER
def T_HIGH : Nat := AVG_PULSE_LENGTH * PULSE_MULTIPLIER * 2
def T_HDR : Nat := AVG_PULSE_LENGTH * 17
def T_FTR : Nat := AVG_PULSE_LENGTH * 34
def NBITS : Nat := (RAW_LENGTH - 1 - 2) / 2

/-! ## The three comparisons -/

/-- `LEN_EQ(n)` (R83): `n` is the length of a captured frame. -/
def lenEq (n : Nat) : Bool := n == LEN_RX

/-- `WIN_INCL(v)` (R84): `v` lies in the validate window, both ends included; the only use of PULSE_DIV. -/
def winIncl (div v : Nat) : Bool := decide (V_LO div ≤ v) && decide (v ≤ V_HI div)

/-- `WIN_EXCL(v)` (R85): `v` is a "1" pulse, both ends excluded; not scaled by PULSE_DIV. -/
def winExcl (v : Nat) : Bool := decide (B_LO < v) && decide (v < B_HI)

end Sys2Proof.Machine
end

