-- ==== Sys2Proof/Machine/Operands.lean ====
section
/-! DEFINITION. The operands of ENCODE (30_encoding.md R64, 43_encode.md R130). The other commands have none. -/

namespace Sys2Proof.Machine

open Sys2Proof

/-- `unitcode_present = (UP == 1)`; where it is absent the bits UC are ignored (R64). -/
def unitcodeOperand (up : Bool) (uc : UnitCode) : Option UnitCode := if up then some uc else none

/-- `state_present = (SP == 1)`; where it is absent the bit ST is ignored (R64). -/
def stateOperand (sp : Bool) (st : DevState) : Option DevState := if sp then some st else none

/-- Both operands of ENCODE, or none where `missing = (UP == 0) or (SP == 0)` (R130). -/
def encodeOperands (up sp : Bool) (st : DevState) (uc : UnitCode) : Option FieldSet :=
  match unitcodeOperand up uc, stateOperand sp st with
  | some u, some x => some ⟨u, x⟩
  | some _, none => none
  | none, some _ => none
  | none, none => none

end Sys2Proof.Machine
end

