-- ==== Sys2Proof/Machine/Ops.lean ====
section
/-! DEFINITION. The named operations every meaning is made of: reads and writes of PBUF, PLEN and the address space,
completing a command, raising an error, the reset input, and taking the host's next event. -/

namespace Sys2Proof.Machine

open Sys2Proof

/-! ## PBUF, PLEN and the host register space -/

/-- The duration in entry `i` as a natural (R22, R86). -/
def pulse (p : Pbuf) (i : Nat) (h : i < 52) : Nat := p[i].toNat

/-- `PBUF[i] <- d`, all 32 bits (44_host_access.md R150). -/
def storePbuf (i : Fin 52) (d : Word) (s : State) : State := { s with pbuf := s.pbuf.set i.val d i.isLt }

/-- `PLEN <- d`, all 32 bits (R152). -/
def storePlen (d : Word) (s : State) : State := { s with plen := d }

/-- A whole train into PBUF with its length (43_encode.md R134). -/
def loadTrain (t : Pbuf) (n : Word) (s : State) : State := { s with pbuf := t, plen := n }

/-- What a host read of address `a` returns (20_memory.md R42): CMD and the reserved addresses read 0. -/
def hostRead (s : State) (a : Addr) : Word :=
  if h : a.toNat < 52 then s.pbuf[a.toNat]
  else if a = addrPLEN then s.plen
  else if a = addrSTATUS then s.status
  else if a = addrRESULT then s.result
  else 0#32

/-- A host read completes: `rdata` goes to the host, the block is unchanged (R46; log 5). -/
def returnRead (rdata : Word) (s : State) : State := { s with reads := rdata :: s.reads }

/-- A host read of address `a` as one access. -/
def readWord (a : Addr) (s : State) : State := returnRead (hostRead s a) s

/-! ## Completing a command and raising an error -/

/-- A command completes without an error: STATUS is rewritten whole (10_state.md R24). -/
def complete (lastop : BitVec 4) (vok : Bool) (s : State) : State :=
  { s with status := statusWord lastop .none vok }

/-- `raise E`: the command ends here with STATUS written and nothing else changed; control goes nowhere and nothing is
saved (60_exceptions.md R196, R193). This is the model's one way of taking an exception. There is no return from it:
the next command rewrites STATUS (R197). -/
def raiseError (lastop : BitVec 4) (e : ErrCode) (s : State) : State :=
  { s with status := statusWord lastop e false }

/-- `RESULT <- v` (42_decode.md R114). -/
def storeResult (v : Word) (s : State) : State := { s with result := v }

/-! ## The reset input -/

/-- Reset: from any state to the reset state (70_reset_and_hazards.md R220, R221). PBUF gets fresh free values; the
host's own data and the strap PULSE_DIV are not the block's state and stay (log 6). -/
def takeReset (s : State) : State :=
  { s with
    pbuf := unspecifiedPbuf (s.resets + 1)
    plen := 0#32
    status := 0#32
    result := 0#32
    resets := s.resets + 1 }

/-! ## The host's next event -/

/-- Take the first pending event; accesses take effect in the order the host issues them (20_memory.md R48; log 3). -/
def nextEvent (s : State) : Option (Event × State) :=
  match s.pending with
  | [] => none
  | e :: rest => some (e, { s with pending := rest })

/-- Put an event in front of all pending ones. -/
def pushEvent (e : Event) (s : State) : State := { s with pending := e :: s.pending }

end Sys2Proof.Machine
end

