-- ==== Sys2Proof/Machine/Demodulator.lean ====
section
/-! DEFINITION. The demodulator: the timing validator (41_validate.md) and the bit extractor (42_decode.md), with the
commands VALIDATE and DECODE. -/

namespace Sys2Proof.Machine

open Sys2Proof

/-- `validate(P, n)` (R100): the length test first; the last pulse is entry 50 (R101). -/
def validateTrain (div : BitVec 16) (p : Pbuf) (n : Word) : Bool :=
  lenEq n.toNat && winIncl div.toNat (pulse p 50 (by decide))

/-- `bits(P)` (R110): bit `k` is the classification of the pulse at the even index `2k + 2`. -/
def bits (p : Pbuf) : List Bool :=
  (List.finRange 24).map fun k => winExcl (pulse p (2 * k.val + 2) (by omega))

/-- `value(b)` (R111): the array read in reverse, most significant bit first. -/
def value (b : List Bool) : Nat :=
  b.foldr (fun x acc => 2 * acc + x.toNat) 0

/-- `decode(P, n)` (R113): re-validates (90_conflicts.md C2); the state is always off (R112). -/
def decodeTrain (div : BitVec 16) (p : Pbuf) (n : Word) : Except ErrCode FieldSet :=
  if validateTrain div p n then .ok ⟨BitVec.ofNat 24 (value (bits p)), .off⟩
  else .error .invalidFrame

/-- VALIDATE on a state (R103): a false verdict is mirrored as INVALID_FRAME (C8). -/
def runValidate (s : State) : State :=
  if validateTrain s.pulseDiv s.pbuf s.plen then complete 1#4 true s
  else raiseError 1#4 .invalidFrame s

/-- DECODE on a state (R114): on an invalid frame RESULT is cleared and INVALID_FRAME raised. -/
def runDecode (s : State) : State :=
  match decodeTrain s.pulseDiv s.pbuf s.plen with
  | .ok f => complete 2#4 true (storeResult (resultWord f) s)
  | .error e => raiseError 2#4 e (storeResult noFieldSet s)

/-- VALIDATE (R103). -/
def execValidate (s : State) : Host.Outcome State Fault Refusal := .next (runValidate s)

/-- DECODE (R114). -/
def execDecode (s : State) : Host.Outcome State Fault Refusal := .next (runDecode s)

end Sys2Proof.Machine
end

