-- ==== Sys2Proof/Machine/Modulator.lean ====
section
/-! DEFINITION. The modulator: the bit-to-pulse generator (43_encode.md), with the command ENCODE. -/

namespace Sys2Proof.Machine

open Sys2Proof

/-- A constant of the comparator as a duration. -/
def duration (n : Nat) : Word := BitVec.ofNat 32 n

/-- The train before step 1. Every position is written by the steps below, so what it holds never shows
(90_conflicts.md C5; log 10). -/
def blankTrain : Pbuf := Vector.replicate 52 0#32

/-- Step 1 of R131: every pair `(i, i+1)`, `i = 0, 2, …, 48`, gets the low pattern. -/
def lowPairs (t : Pbuf) : Pbuf :=
  (List.finRange 25).foldl
    (fun (t : Pbuf) k => (t.set (2 * k.val) (duration T_SHORT)).set (2 * k.val + 1) (duration T_LOW)) t

/-- Step 2 of R131: the header. -/
def header (t : Pbuf) : Pbuf := (t.set 0 (duration T_HDR)).set 1 (duration T_SHORT)

/-- Bit `i` of a unit code, least significant first: `(u / 2^i) mod 2` (R131). -/
def unitcodeBit (u : UnitCode) (i : Nat) : Bool := u.toNat / 2 ^ i % 2 == 1

/-- Step 3 of R131: the high pattern at the pair of every 1 bit. -/
def highPairs (u : UnitCode) (t : Pbuf) : Pbuf :=
  (List.finRange 24).foldl
    (fun (t : Pbuf) i =>
      if unitcodeBit u i.val then
        (t.set (2 + 2 * i.val) (duration T_SHORT)).set (2 + 2 * i.val + 1) (duration T_HIGH)
      else t) t

/-- Step 4 of R131: the footer. -/
def footer (t : Pbuf) : Pbuf := (t.set 50 (duration T_SHORT)).set 51 (duration T_FTR)

/-- `encode(u)` (R131), the steps in the order of the source; neither the state nor PULSE_DIV is used (R133). -/
def encodeTrain (u : UnitCode) : Pbuf := footer (highPairs u (header (lowPairs blankTrain)))

/-- ENCODE on a state (R134): MISSING_FIELD where an operand is absent (R130, R136), else the train, its length 52
(step 5) and STATUS with VOK 0. -/
def runEncode (up sp : Bool) (st : DevState) (uc : UnitCode) (s : State) : State :=
  match encodeOperands up sp st uc with
  | some f => complete 3#4 false (loadTrain (encodeTrain f.unitcode) (BitVec.ofNat 32 LEN_TX) s)
  | none => raiseError 3#4 .missingField s

/-- ENCODE (R134). -/
def execEncode (up sp : Bool) (st : DevState) (uc : UnitCode) (s : State) : Host.Outcome State Fault Refusal :=
  .next (runEncode up sp st uc s)

end Sys2Proof.Machine
end

