-- ==== Sys2Proof/Machine/HostAccess.lean ====
section
/-! DEFINITION. The host accesses (44_host_access.md): one meaning per row of format BUS. -/

namespace Sys2Proof.Machine

open Sys2Proof

/-- Write PBUF[i] (R150). -/
def execWrPbuf (i : Fin 52) (wdata : Word) (s : State) : Host.Outcome State Fault Refusal :=
  .next (storePbuf i wdata s)

/-- Read PBUF[i] (R151). -/
def execRdPbuf (i : Fin 52) (s : State) : Host.Outcome State Fault Refusal :=
  .next (readWord (addrPBUF i) s)

/-- Write PLEN (R152): no range check. -/
def execWrPlen (wdata : Word) (s : State) : Host.Outcome State Fault Refusal :=
  .next (storePlen wdata s)

/-- Read PLEN (R153). -/
def execRdPlen (s : State) : Host.Outcome State Fault Refusal :=
  .next (readWord addrPLEN s)

/-- Execute a command word (30_encoding.md R67): one of the three commands, or ILLEGAL_COMMAND with the word's bits
31:28 as LASTOP (60_exceptions.md R194). Legality is tested before the command's own check (R195). -/
def runCommandWord (w : Word) (s : State) : State :=
  match decodeCommand w with
  | .ok .validate => runValidate s
  | .ok .decode => runDecode s
  | .ok (.encode up sp st uc) => runEncode up sp st uc s
  | .error _ => raiseError (cmdOP w) .illegalCommand s

/-- Write CMD (R154): execute the word, atomically (20_memory.md R47). The word is not stored (R26). -/
def execWrCmd (w : Word) (s : State) : Host.Outcome State Fault Refusal :=
  .next (runCommandWord w s)

/-- Read CMD (R155): returns 0, executes nothing. -/
def execRdCmd (s : State) : Host.Outcome State Fault Refusal :=
  .next (readWord addrCMD s)

/-- Read STATUS (R156): nothing is cleared. -/
def execRdStatus (s : State) : Host.Outcome State Fault Refusal :=
  .next (readWord addrSTATUS s)

/-- Read RESULT (R157). -/
def execRdResult (s : State) : Host.Outcome State Fault Refusal :=
  .next (readWord addrRESULT s)

/-- Write STATUS or RESULT (R158): completes normally and changes nothing. -/
def execWrStatusResult (_reg : ReadOnlyReg) (_wdata : Word) (s : State) : Host.Outcome State Fault Refusal :=
  .next s

/-- A reserved address (R159): a write changes nothing, a read returns 0. -/
def execReservedAddress (we : Bool) (_addr : Addr) (_wdata : Word) (s : State) :
    Host.Outcome State Fault Refusal :=
  .next (if we then s else returnRead 0#32 s)

end Sys2Proof.Machine
end

