-- ==== Sys2Proof/Machine/Dispatch.lean ====
section
/-! DEFINITION. One arm per instruction: the meaning of each. -/

namespace Sys2Proof.Machine

open Sys2Proof

def exec (i : Instr) (s : State) : Host.Outcome State Fault Refusal :=
  match i with
  | .validate => Sys2Proof.Machine.execValidate s
  | .decode => Sys2Proof.Machine.execDecode s
  | .encode up sp st uc => Sys2Proof.Machine.execEncode up sp st uc s
  | .wrPbuf k wdata => Sys2Proof.Machine.execWrPbuf k wdata s
  | .rdPbuf k => Sys2Proof.Machine.execRdPbuf k s
  | .wrPlen wdata => Sys2Proof.Machine.execWrPlen wdata s
  | .rdPlen => Sys2Proof.Machine.execRdPlen s
  | .wrCmd w => Sys2Proof.Machine.execWrCmd w s
  | .rdCmd => Sys2Proof.Machine.execRdCmd s
  | .rdStatus => Sys2Proof.Machine.execRdStatus s
  | .rdResult => Sys2Proof.Machine.execRdResult s
  | .wrStatusResult reg wdata => Sys2Proof.Machine.execWrStatusResult reg wdata s
  | .reservedAddress we addr wdata => Sys2Proof.Machine.execReservedAddress we addr wdata s

end Sys2Proof.Machine
end

