-- ==== Sys2Proof/Machine/Step.lean ====
section
/-! DEFINITION. One step: the host's next event takes effect (00_scope.md R9, 10_state.md R20). -/

namespace Sys2Proof.Machine

open Sys2Proof

/-- Take the host's next event. A host access is decoded and executed; reset gives the reset state; where the host does
nothing the block "holds its state and does nothing" (60_exceptions.md R203; DEDUCED, safe, log 4). -/
def step (s : State) : Host.Outcome State Fault Refusal :=
  match nextEvent s with
  | none => .next s
  | some (.access a, s') => exec (decodeAccess a) s'
  | some (.reset, s') => .next (takeReset s')

/-- The state whose next event is the host access that the numbered word stands for (log 3, log 8): the block fetches
nothing, the host pushes each access (10_state.md R27). -/
def State.withFetchWord (s : State) (nbits w : Nat) : State :=
  pushEvent (.access (tableAccess nbits w)) s

end Sys2Proof.Machine
end

