-- ==== Sys2Proof/Machine/Assembler.lean ====
section
/-! DEFINITION. The assembler statements and pseudo-instructions (30_encoding.md R68, R69): host accesses the host's
software builds. The block has no part in it. -/

namespace Sys2Proof.Machine

open Sys2Proof

/-! ## Basic statements (R68): each is one host access -/

def asmWR (a : Addr) (d : Word) : Access := ⟨true, a, d⟩
def asmRD (a : Addr) : Access := ⟨false, a, 0#32⟩
def asmVALIDATE : Access := asmWR addrCMD 0x10000000#32
def asmDECODE : Access := asmWR addrCMD 0x20000000#32

/-- `ENCODE uc=<u>, st=<s>`; `none` stands for `-`. A unit code of `2^24` or more has no command word: the host refuses
it before the block is reached (43_encode.md R135, 70_reset_and_hazards.md R233), the answer is then `none`. -/
def asmENCODE (uc : Option Nat) (st : Option DevState) : Option Access :=
  let word (up : Bool) (u : UnitCode) : Word :=
    encodeCommand (.encode up st.isSome (st.getD .off) u)
  match uc with
  | none => some (asmWR addrCMD (word false 0#24))
  | some u => if u < 2 ^ 24 then some (asmWR addrCMD (word true (BitVec.ofNat 24 u))) else none

/-! ## Pseudo-instructions (R69) -/

def asmPUT (i : Fin 52) (v : Word) : Access := asmWR (addrPBUF i) v
def asmGET (i : Fin 52) : Access := asmRD (addrPBUF i)
def asmSETLEN (n : Word) : Access := asmWR addrPLEN n

/-- `LOADTRAIN [v0, …, v(n-1)]`, `n <= 52`: one PUT per pulse, in order, then SETLEN `n`; no expansion for a longer
list. -/
def asmLOADTRAIN (vs : List Word) : Option (List Access) :=
  if vs.length ≤ 52 then
    some (vs.mapIdx (fun i v => asmWR (BitVec.ofNat 7 i) v) ++ [asmSETLEN (BitVec.ofNat 32 vs.length)])
  else none

/-- `SHIFT1`: for `j = 0 .. 50`, `t <- GET j+1; PUT j, t`; then `SETLEN 51`. What a GET returns is known to the host
when it writes the PUT; `p` is the buffer's contents before the first access, which the ascending order never
overwrites before reading (log 11). -/
def asmSHIFT1 (p : Pbuf) : List Access :=
  ((List.finRange 51).flatMap fun j =>
      [asmGET ⟨j.val + 1, by omega⟩, asmPUT ⟨j.val, by omega⟩ (p[j.val + 1])])
    ++ [asmSETLEN 51#32]

def asmTRUNC51 : Access := asmSETLEN 51#32
def asmSTAT : Access := asmRD addrSTATUS
def asmRES : Access := asmRD addrRESULT

end Sys2Proof.Machine
end

