-- ==== Sys2Proof/Safety.lean ====
section
/-! DEFINITION. The terms the statements use: safe steps, the invariant of the block's registers, the two windows of a
train, and the closed form of an encoded train. -/

namespace Sys2Proof.Machine

open Sys2Proof

/-- A step is safe when it answers a next state: "a host access never stalls for ever, never faults" (R160). -/
def SafeStep (s : State) : Prop := ∃ t, step s = .next t

/-- "The complete set of values STATUS can hold" (10_state.md R24). -/
def legalStatuses : List Word :=
  [0x00000000#32, 0x00000103#32, 0x00000111#32, 0x00000203#32, 0x00000211#32, 0x00000301#32, 0x00000321#32,
    0x00000031#32, 0x00000131#32, 0x00000231#32, 0x00000331#32, 0x00000431#32, 0x00000531#32, 0x00000631#32,
    0x00000731#32, 0x00000831#32, 0x00000931#32, 0x00000A31#32, 0x00000B31#32, 0x00000C31#32, 0x00000D31#32,
    0x00000E31#32, 0x00000F31#32]

/-- RESULT is 0, or FVALID is 1 with bits 30:24 zero (R25: bits 30:25 read 0, DECODE always writes STATE 0). -/
def resultLegal (w : Word) : Bool := w == 0#32 || (resultFVALID w && w.extractLsb' 24 7 == 0#7)

/-- What the two answer registers hold at all times: legal values (R24, R25) that belong together (20_memory.md R47:
no "`STATUS` that belongs to a different command than `RESULT`"). -/
structure RegistersAgree (s : State) : Prop where
  statusLegal : s.status ∈ legalStatuses
  resultLegal : resultLegal s.result = true
  /-- Before the first command since reset RESULT is 0. -/
  noCommandYet : s.status = 0x000#32 → s.result = 0#32
  /-- Right after a successful DECODE there is a field set. -/
  decodeSuccess : s.status = 0x203#32 → resultFVALID s.result = true
  /-- Right after a failed DECODE there is none. -/
  decodeFailure : s.status = 0x211#32 → s.result = 0#32

/-- `w` holds `tail51(t)` in its first 51 entries (45_codec_laws.md R174): element `j` is `t[j+1]`. -/
def HoldsTail51 (w t : Pbuf) : Prop := ∀ (j : Nat) (h : j < 51), w[j] = t[j + 1]

/-- `w` holds `head51(t)` in its first 51 entries (R174): element `j` is `t[j]`. -/
def HoldsHead51 (w t : Pbuf) : Prop := ∀ (j : Nat) (h : j < 51), w[j] = t[j]

/-- The closed form of `encode(u)` at position `p` (43_encode.md R132). -/
def trainEntry (u : UnitCode) (p : Nat) : Nat :=
  if p = 0 then 8075
  else if p = 1 then 950
  else if p = 50 then 950
  else if p = 51 then 16150
  else if p % 2 = 0 then 950
  else if u.toNat / 2 ^ ((p - 3) / 2) % 2 = 1 then 2850
  else 1425

/-- The condition of `validate` on a state in plain numbers (41_validate.md R100). -/
def FrameValid (s : State) : Prop :=
  s.plen.toNat = 51 ∧ 450 * s.pulseDiv.toNat ≤ s.pbuf[50].toNat ∧ s.pbuf[50].toNat ≤ 500 * s.pulseDiv.toNat

/-- A duration is a "1" pulse, in plain numbers (R85). -/
def IsOnePulse (v : Word) : Prop := 2700 < v.toNat ∧ v.toNat < 3000

/-- A command word is illegal by the three cases (a), (b), (c) of 30_encoding.md R65, in plain numbers: the opcode is
`w / 2^28`, bits 27:0 are `w mod 2^28`. -/
def IllegalByR65 (w : Word) : Prop :=
  (w.toNat / 2 ^ 28 = 0 ∨ 4 ≤ w.toNat / 2 ^ 28) ∨
  ((w.toNat / 2 ^ 28 = 1 ∨ w.toNat / 2 ^ 28 = 2) ∧ w.toNat % 2 ^ 28 ≠ 0) ∨
  (w.toNat / 2 ^ 28 = 3 ∧ w.getLsbD 27 = true)

/-- The command word of an instruction that is a command (R68), none for every other access. The instructions with a
command word are those that rewrite STATUS (R24). -/
def commandWord : Instr → Option Word
  | .validate => some 0x10000000#32
  | .decode => some 0x20000000#32
  | .encode up sp st uc => some (encodeCommand (.encode up sp st uc))
  | .wrCmd w => some w
  | .wrPbuf _ _ => none
  | .rdPbuf _ => none
  | .wrPlen _ => none
  | .rdPlen => none
  | .rdCmd => none
  | .rdStatus => none
  | .rdResult => none
  | .wrStatusResult _ _ => none
  | .reservedAddress _ _ _ => none

end Sys2Proof.Machine
end

