-- ==== Sys2Proof/Certificates/Slice0/Obligations.lean ====
section
/-! DEFINITION. The statements about PulseCodec for the provers. OBLIGATIONS.json says of each which rule it states. -/

open Sys2Proof Sys2Proof.Machine

/-! ## Reset and steps -/

/-- O1. The values the spec gives for reset (10_state.md R32), with the invariant of the registers. The empty lists and
the counter are the model's own choice (log 1, log 3, log 5). -/
def Obligations.ResetStateHoldsSpecValues : Prop :=
  State.reset.plen = 0x00000000#32 ∧ State.reset.status = 0x00000000#32 ∧ State.reset.result = 0x00000000#32 ∧
    RegistersAgree State.reset

/-- O2. Straight after reset, whatever PBUF and PULSE_DIV hold, VALIDATE and DECODE give verdict false (R32). -/
def Obligations.ZeroLengthGivesFalseVerdict : Prop :=
  ∀ s : State, s.plen = 0x00000000#32 →
    exec .validate s = .next { s with status := 0x00000111#32 } ∧
    exec .decode s = .next { s with status := 0x00000211#32, result := 0x00000000#32 }

/-- O3. Reset is a transition from any state to the reset state (R220, R221); PBUF is left free. That the host's own
data and PULSE_DIV stay is the model's choice (log 6). -/
def Obligations.ResetEventGivesResetValues : Prop :=
  ∀ (s : State) (rest : List Event), s.pending = .reset :: rest →
    ∃ t, step s = .next t ∧ t.plen = 0x00000000#32 ∧ t.status = 0x00000000#32 ∧ t.result = 0x00000000#32 ∧
      t.pulseDiv = s.pulseDiv ∧ t.pending = rest ∧ t.reads = s.reads

/-- O4. A step runs the decoded access, in issue order; an access encoded from a well-formed instruction runs that
instruction. The list of pending accesses is the model's (log 3). -/
def Obligations.StepRunsDecodedAccess : Prop :=
  (∀ (s : State) (a : Access) (rest : List Event), s.pending = .access a :: rest →
    step s = exec (decodeAccess a) { s with pending := rest }) ∧
  (∀ (s : State) (i : Instr) (rest : List Event), i.wellFormed = true →
    s.pending = .access (encodeAccess i) :: rest → step s = exec i { s with pending := rest })

/-- O5. Between host accesses the block holds its state (60_exceptions.md R203; log 4). -/
def Obligations.IdleStepHoldsState : Prop :=
  ∀ s : State, s.pending = [] → step s = .next s

/-- O6. Every step from every state answers a next state: no fault, no refusal, no wait (R160, R234). -/
def Obligations.EveryStepAnswersNext : Prop := ∀ s : State, SafeStep s

/-- O7. The registers' invariant holds after every step from a state in which it holds (R24, R25, R47). -/
def Obligations.StepKeepsRegistersAgree : Prop :=
  ∀ s t : State, RegistersAgree s → step s = .next t → RegistersAgree t

/-- O8. No step changes PULSE_DIV (R29, R222), and no step changes what the host has already read but by appending. -/
def Obligations.StepKeepsPulseDivAndReads : Prop :=
  ∀ s t : State, step s = .next t →
    t.pulseDiv = s.pulseDiv ∧ (t.reads = s.reads ∨ ∃ v, t.reads = v :: s.reads)

/-! ## Encodings -/

/-- O9. Decoding the encoding of a well-formed instruction gives it back, every operand at every value. -/
def Obligations.DecodeOfEncodeIsIdentity : Prop :=
  ∀ i : Instr, i.wellFormed = true → decodeAccess (encodeAccess i) = i

/-- O10. Every access decodes to a well-formed instruction whose encoding is that access again, but for the ignored
`wdata` of a read. -/
def Obligations.EncodeOfDecodeIsIdentity : Prop :=
  ∀ a : Access, (decodeAccess a).wellFormed = true ∧
    (encodeAccess (decodeAccess a)).we = a.we ∧ (encodeAccess (decodeAccess a)).addr = a.addr ∧
    (a.we = true → (encodeAccess (decodeAccess a)).wdata = a.wdata)

/-- O11. The patterns of the ten `BUS` rows partition the 256 values of `{we, addr}`, and the decoder's answer is of the
row the pattern matches (R60). -/
def Obligations.BusPatternsPartitionAccesses : Prop :=
  (∀ p : BitVec 8, (busRowsMatching p).length = 1) ∧
  (∀ a : Access, busRowsMatching a.pattern = [(decodeAccess a).busMnemonic])

/-- O12. Words of the spec decode to the instructions they stand for (R68, 95_test_vectors.md). -/
def Obligations.SpecWordsDecode : Prop :=
  decodeAccess ⟨true, 0x41#7, 0x10000000#32⟩ = .validate ∧
  decodeAccess ⟨true, 0x41#7, 0x20000000#32⟩ = .decode ∧
  decodeAccess ⟨true, 0x41#7, 0x3612D687#32⟩ = .encode true true .off 1234567#24 ∧
  decodeAccess ⟨true, 0x41#7, 0x37000005#32⟩ = .encode true true .on 5#24 ∧
  decodeAccess ⟨true, 0x41#7, 0x32000000#32⟩ = .encode false true .off 0#24 ∧
  decodeAccess ⟨true, 0x41#7, 0x34000007#32⟩ = .encode true false .off 7#24 ∧
  decodeAccess ⟨true, 0x41#7, 0x38000000#32⟩ = .wrCmd 0x38000000#32 ∧
  decodeAccess ⟨true, 0x32#7, 16150#32⟩ = .wrPbuf 50 16150#32 ∧
  decodeAccess ⟨false, 0x03#7, 0#32⟩ = .rdPbuf 3 ∧
  decodeAccess ⟨true, 0x40#7, 51#32⟩ = .wrPlen 51#32 ∧
  decodeAccess ⟨false, 0x34#7, 0#32⟩ = .reservedAddress false 0x34#7 0#32

/-- O13. The ENCODE command word is `0x30000000 + UP*2^26 + SP*2^25 + ST*2^24 + UC` (R68, R134), and the operands a
word gives are the bits R64 names. -/
def Obligations.EncodeWordLayout : Prop :=
  (∀ (up sp : Bool) (st : DevState) (uc : UnitCode),
    encodeAccess (.encode up sp st uc) = ⟨true, 0x41#7, encodeCommand (.encode up sp st uc)⟩ ∧
    (encodeCommand (.encode up sp st uc)).toNat =
      0x30000000 + up.toNat * 2 ^ 26 + sp.toNat * 2 ^ 25 + st.bit.toNat * 2 ^ 24 + uc.toNat) ∧
  (∀ w : Word, w &&& 0xF8000000#32 = 0x30000000#32 →
    decodeCommand w = .ok (.encode (w.getLsbD 26) (w.getLsbD 25) (if w.getLsbD 24 then .on else .off)
      (BitVec.ofNat 24 (w.toNat % 2 ^ 24))))

/-- O14. A command word is illegal iff one of the three cases of R65 holds; an illegal command writes STATUS and nothing
else; the all-zero and the all-ones word are illegal. -/
def Obligations.IllegalWordsAreExactlyR65 : Prop :=
  (∀ w : Word, (∃ e, decodeCommand w = .error e) ↔ IllegalByR65 w) ∧
  (∀ w : Word, isCommandWord w = false ↔ IllegalByR65 w) ∧
  (∀ (w : Word) (s : State), IllegalByR65 w →
    ∃ v, statusERR v = 3#4 ∧ exec (.wrCmd w) s = .next { s with status := v }) ∧
  IllegalByR65 0x00000000#32 ∧ IllegalByR65 0xFFFFFFFF#32

/-- O15. The effect of an illegal command (R194): `STATUS <- 0x00000031 + 0x100 * w[31:28]`, nothing else. -/
def Obligations.IllegalCommandWritesStatusOnly : Prop :=
  ∀ (w : Word) (s : State), IllegalByR65 w →
    exec (.wrCmd w) s = .next { s with status := 0x00000031#32 + 0x100#32 * (w >>> 28) }

/-- O16. A write to CMD executes the word by the arms of R67, and in every arm LASTOP is `w[31:28]`. -/
def Obligations.WrCmdExecutesTheWord : Prop :=
  (∀ s : State, exec (.wrCmd 0x10000000#32) s = exec .validate s) ∧
  (∀ s : State, exec (.wrCmd 0x20000000#32) s = exec .decode s) ∧
  (∀ (w : Word) (s : State), w.toNat / 2 ^ 28 = 3 → w.getLsbD 27 = false →
    exec (.wrCmd w) s = exec (.encode (w.getLsbD 26) (w.getLsbD 25) (if w.getLsbD 24 then .on else .off)
      (BitVec.ofNat 24 (w.toNat % 2 ^ 24))) s) ∧
  (∀ (w : Word) (s : State), w ≠ 0x10000000#32 → w ≠ 0x20000000#32 →
    ¬(w.toNat / 2 ^ 28 = 3 ∧ w.getLsbD 27 = false) →
    exec (.wrCmd w) s = .next { s with status := 0x00000031#32 + 0x100#32 * (w >>> 28) }) ∧
  (∀ (w : Word) (s : State), ∃ t, exec (.wrCmd w) s = .next t ∧ (statusLASTOP t.status).toNat = w.toNat / 2 ^ 28)

/-! ## Host accesses -/

/-- O17. Write PBUF[i] (R150). -/
def Obligations.WritePbufStoresOneEntry : Prop :=
  ∀ (i : Fin 52) (d : Word), decodeAccess ⟨true, BitVec.ofNat 7 i.val, d⟩ = .wrPbuf i d ∧
    ∀ s : State, ∃ t, exec (.wrPbuf i d) s = .next t ∧ t = { s with pbuf := t.pbuf } ∧
      t.pbuf[i.val] = d ∧ (∀ (j : Nat) (h : j < 52), j ≠ i.val → t.pbuf[j] = s.pbuf[j])

/-- O18. Read PBUF[i] (R151). -/
def Obligations.ReadPbufReturnsEntry : Prop :=
  ∀ (i : Fin 52) (d : Word), decodeAccess ⟨false, BitVec.ofNat 7 i.val, d⟩ = .rdPbuf i ∧
    ∀ s : State, exec (.rdPbuf i) s = .next { s with reads := s.pbuf[i.val] :: s.reads }

/-- O19. Write PLEN (R152): all 32 bits, no range check, nothing else. -/
def Obligations.WritePlenStoresWord : Prop :=
  ∀ d : Word, decodeAccess ⟨true, 0x40#7, d⟩ = .wrPlen d ∧
    ∀ s : State, exec (.wrPlen d) s = .next { s with plen := d }

/-- O20. Read PLEN (R153). -/
def Obligations.ReadPlenReturnsPlen : Prop :=
  ∀ d : Word, decodeAccess ⟨false, 0x40#7, d⟩ = .rdPlen ∧
    ∀ s : State, exec .rdPlen s = .next { s with reads := s.plen :: s.reads }

/-- O21. Read CMD (R155): returns 0, no command executes, no state changes. -/
def Obligations.ReadCmdReturnsZero : Prop :=
  ∀ d : Word, decodeAccess ⟨false, 0x41#7, d⟩ = .rdCmd ∧
    ∀ s : State, exec .rdCmd s = .next { s with reads := 0x00000000#32 :: s.reads }

/-- O22. Read STATUS (R156): reading clears nothing. -/
def Obligations.ReadStatusReturnsStatus : Prop :=
  ∀ d : Word, decodeAccess ⟨false, 0x42#7, d⟩ = .rdStatus ∧
    ∀ s : State, exec .rdStatus s = .next { s with reads := s.status :: s.reads }

/-- O23. Read RESULT (R157). -/
def Obligations.ReadResultReturnsResult : Prop :=
  ∀ d : Word, decodeAccess ⟨false, 0x43#7, d⟩ = .rdResult ∧
    ∀ s : State, exec .rdResult s = .next { s with reads := s.result :: s.reads }

/-- O24. Write STATUS or RESULT (R158): completes and changes no state. -/
def Obligations.WriteReadOnlyRegisterIgnored : Prop :=
  ∀ d : Word, decodeAccess ⟨true, 0x42#7, d⟩ = .wrStatusResult .status d ∧
    decodeAccess ⟨true, 0x43#7, d⟩ = .wrStatusResult .result d ∧
    ∀ (r : ReadOnlyReg) (s : State), exec (.wrStatusResult r d) s = .next s

/-- O25. Reserved addresses (R159): a read returns 0, a write changes no state. -/
def Obligations.ReservedAddressReadsZeroIgnoresWrites : Prop :=
  ∀ (a : Addr) (d : Word), (0x34 ≤ a.toNat ∧ a.toNat ≤ 0x3F) ∨ (0x44 ≤ a.toNat ∧ a.toNat ≤ 0x7F) →
    (∀ we, decodeAccess ⟨we, a, d⟩ = .reservedAddress we a d) ∧
    ∀ s : State, exec (.reservedAddress true a d) s = .next s ∧
      exec (.reservedAddress false a d) s = .next { s with reads := 0x00000000#32 :: s.reads }

/-- O26. Side effects (R46). A read at any address leaves the block as it is. A write changes only the word it names,
and only at PBUF and PLEN, unless it is a write to CMD. Read after write (20_memory.md R48) is its last part. -/
def Obligations.AccessesChangeOnlyTheirWord : Prop :=
  (∀ (a : Access) (s : State), a.we = false →
    exec (decodeAccess a) s = .next { s with reads := hostRead s a.addr :: s.reads }) ∧
  (∀ (a : Access) (s : State), a.we = true → a.addr ≠ 0x41#7 →
    ∃ t, exec (decodeAccess a) s = .next t ∧ t = { s with pbuf := t.pbuf, plen := t.plen } ∧
      (∀ b : Addr, b ≠ a.addr → hostRead t b = hostRead s b) ∧
      hostRead t a.addr =
        if a.addr.toNat < 52 ∨ a.addr = 0x40#7 then a.wdata else hostRead s a.addr)

/-- O27. Totality (R160): every access matches exactly one row, answers a next state, and changes the block only if it
writes PBUF, PLEN or CMD. -/
def Obligations.EveryAccessCompletes : Prop :=
  ∀ (a : Access), (busRowsMatching a.pattern).length = 1 ∧
    ∀ s : State, ∃ t, exec (decodeAccess a) s = .next t ∧
      (t.toBlock ≠ s.toBlock → a.we = true ∧ (a.addr.toNat < 52 ∨ a.addr = 0x40#7 ∨ a.addr = 0x41#7))

/-! ## Comparator and VALIDATE -/

/-- O28. The three comparisons (R83, R84, R85), for any natural. -/
def Obligations.ComparisonsAreExact : Prop :=
  (∀ n : Nat, lenEq n = true ↔ n = 51) ∧
  (∀ div v : Nat, winIncl div v = true ↔ 450 * div ≤ v ∧ v ≤ 500 * div) ∧
  (∀ v : Nat, winExcl v = true ↔ 2700 < v ∧ v < 3000)

/-- O29. The constants of R81 and the facts it lists about the emitted pulses and the two windows. -/
def Obligations.EmittedPulsesAgainstWindows : Prop :=
  LEN_RX = 51 ∧ LEN_TX = 52 ∧ B_LO = 2700 ∧ B_HI = 3000 ∧ T_SHORT = 950 ∧ T_LOW = 1425 ∧ T_HIGH = 2850 ∧
  T_HDR = 8075 ∧ T_FTR = 16150 ∧ (∀ div, V_LO div = 450 * div ∧ V_HI div = 500 * div) ∧
  winExcl T_HIGH = true ∧ winExcl T_SHORT = false ∧ winExcl T_LOW = false ∧ winExcl T_HDR = false ∧
  winExcl T_FTR = false ∧
  ∀ div : Nat, (winIncl div T_FTR = true ↔ div = 33 ∨ div = 34 ∨ div = 35) ∧
    (winIncl div T_SHORT = true ↔ div = 2) ∧ (winIncl div T_LOW = true ↔ div = 3) ∧
    (winIncl div T_HIGH = true ↔ div = 6) ∧ (winIncl div T_HDR = true ↔ div = 17)

/-- O30. VALIDATE (R103) in plain numbers: STATUS `0x103` or `0x111`, everything else unchanged. -/
def Obligations.ValidateWritesVerdict : Prop :=
  decodeAccess ⟨true, 0x41#7, 0x10000000#32⟩ = .validate ∧
  ∀ s : State,
    (FrameValid s → exec .validate s = .next { s with status := 0x00000103#32 }) ∧
    (¬FrameValid s → exec .validate s = .next { s with status := 0x00000111#32 })

/-- O31. What `validate` does not check (R102): the verdict depends on entry 50 alone, and any train of length 51 whose
last pulse is in the window is valid. -/
def Obligations.ValidateSeesOnlyTheLastPulse : Prop :=
  (∀ (div : BitVec 16) (p q : Pbuf) (n : Word), p[50] = q[50] → validateTrain div p n = validateTrain div q n) ∧
  (∀ (div : BitVec 16) (p : Pbuf), 450 * div.toNat ≤ p[50].toNat → p[50].toNat ≤ 500 * div.toNat →
    validateTrain div p 51#32 = true)

/-- O32. `validate` is false for every other length (R170, R178) and for every last pulse outside the window, and true
where neither holds (R171). -/
def Obligations.ValidateRejects : Prop :=
  (∀ (div : BitVec 16) (p : Pbuf) (n : Word), n ≠ 51#32 → validateTrain div p n = false) ∧
  (∀ (div : BitVec 16) (p : Pbuf) (n : Word),
    p[50].toNat < 450 * div.toNat ∨ 500 * div.toNat < p[50].toNat → validateTrain div p n = false) ∧
  (∀ (div : BitVec 16) (p : Pbuf) (n : Word), n = 51#32 →
    ¬(p[50].toNat < 450 * div.toNat ∨ 500 * div.toNat < p[50].toNat) → validateTrain div p n = true) ∧
  (∀ s : State, s.plen = 50#32 → exec .validate s = .next { s with status := 0x00000111#32 })

/-! ## DECODE -/

/-- O33. `bits(P)` (R110): 24 bits, bit `k` is 1 iff `2700 < P[2k+2] < 3000`. -/
def Obligations.BitsSampleEvenEntries : Prop :=
  ∀ p : Pbuf, (bits p).length = 24 ∧
    ∀ (k : Nat) (h : k < 24), ∃ b : Bool, (bits p)[k]? = some b ∧ (b = true ↔ IsOnePulse p[2 * k + 2])

/-- O34. `value(b)` (R111): the sum of the weights `2^k` of the bits set, below `2^24` for 24 bits. -/
def Obligations.ValueIsWeightedSum : Prop :=
  ∀ b : List Bool, b.length = 24 →
    value b = ∑ k ∈ Finset.range 24, (b.getD k false).toNat * 2 ^ k ∧ value b < 2 ^ 24

/-- O35. DECODE (R114): `INVALID_FRAME` with RESULT cleared, or RESULT `0x80000000 + u` where bit `k` of `u` is the
classification of `PBUF[2k+2]`; everything else unchanged. -/
def Obligations.DecodeWritesFieldSetOrError : Prop :=
  decodeAccess ⟨true, 0x41#7, 0x20000000#32⟩ = .decode ∧
  ∀ s : State,
    (¬FrameValid s → exec .decode s = .next { s with status := 0x00000211#32, result := 0x00000000#32 }) ∧
    (FrameValid s → ∃ u : Nat, u < 2 ^ 24 ∧
      (∀ (k : Nat) (h : k < 24), u.testBit k = true ↔ IsOnePulse s.pbuf[2 * k + 2]) ∧
      exec .decode s = .next { s with status := 0x00000203#32, result := BitVec.ofNat 32 (0x80000000 + u) })

/-- O36. DECODE reads only PLEN, `PBUF[50]` and the 24 even entries 2 to 48 (20_memory.md R53). -/
def Obligations.DecodeReadsOnlySampledEntries : Prop :=
  ∀ s s' t t' : State, s.plen = s'.plen → s.pulseDiv = s'.pulseDiv → s.pbuf[50] = s'.pbuf[50] →
    (∀ (k : Nat) (h : k < 24), s.pbuf[2 * k + 2] = s'.pbuf[2 * k + 2]) →
    exec .decode s = .next t → exec .decode s' = .next t' → t.status = t'.status ∧ t.result = t'.result

/-- O37. A second DECODE on the same train changes nothing (R180, R116). -/
def Obligations.DecodeIsIdempotent : Prop :=
  ∀ s t : State, exec .decode s = .next t → t.pbuf = s.pbuf ∧ t.plen = s.plen ∧ exec .decode t = .next t

/-- O38. DECODE always reports `state = off` (R112). -/
def Obligations.DecodeAlwaysReportsOff : Prop :=
  ∀ s : State, ∃ t, exec .decode s = .next t ∧ resultSTATE t.result = .off

/-! ## ENCODE -/

/-- O39. The five steps of R131 give the closed form of R132 at every position. -/
def Obligations.EncodeTrainClosedForm : Prop :=
  ∀ (u : UnitCode) (p : Nat) (h : p < 52), (encodeTrain u)[p].toNat = trainEntry u p

/-- O40. ENCODE (R134): `MISSING_FIELD`, or the train of R132 in all 52 entries with PLEN 52; RESULT unchanged. -/
def Obligations.EncodeWritesTrainOrError : Prop :=
  ∀ (up sp : Bool) (st : DevState) (uc : UnitCode),
    decodeAccess ⟨true, 0x41#7, BitVec.ofNat 32
      (0x30000000 + up.toNat * 2 ^ 26 + sp.toNat * 2 ^ 25 + st.bit.toNat * 2 ^ 24 + uc.toNat)⟩ =
        .encode up sp st uc ∧
    ∀ s : State,
      (up = false ∨ sp = false → exec (.encode up sp st uc) s = .next { s with status := 0x00000321#32 }) ∧
      (up = true → sp = true → ∃ t, exec (.encode up sp st uc) s = .next t ∧
        t = { s with pbuf := t.pbuf, plen := 52#32, status := 0x00000301#32 } ∧
        ∀ (p : Nat) (h : p < 52), t.pbuf[p].toNat = trainEntry uc p)

/-- O41. ENCODE uses neither the state operand nor PULSE_DIV (R133). -/
def Obligations.EncodeIgnoresStateAndPulseDiv : Prop :=
  (∀ (up sp : Bool) (uc : UnitCode) (s : State), exec (.encode up sp .on uc) s = exec (.encode up sp .off uc) s) ∧
  (∀ (up sp : Bool) (st : DevState) (uc : UnitCode) (s t : State) (d : BitVec 16),
    exec (.encode up sp st uc) s = .next t →
    exec (.encode up sp st uc) { s with pulseDiv := d } = .next { t with pulseDiv := d })

/-- O42. MISSING_FIELD is raised iff an operand is absent, and writes STATUS only (R192; R179 is its example). -/
def Obligations.MissingFieldExactlyWhenAbsent : Prop :=
  (∀ (up sp : Bool) (st : DevState) (uc : UnitCode) (s : State),
    (up = false ∨ sp = false) ↔ exec (.encode up sp st uc) s = .next { s with status := 0x00000321#32 }) ∧
  (∀ (uc : UnitCode) (s : State),
    exec (.encode false true .off uc) s = .next { s with status := 0x00000321#32 }) ∧
  encodeAccess (.encode false true .off 0#24) = ⟨true, 0x41#7, 0x32000000#32⟩

/-- O43. Every successful ENCODE leaves length 52, header 8075 first and footer 16150 last (R172). -/
def Obligations.EncodeFramesTheTrain : Prop :=
  ∀ (u : UnitCode) (st : DevState) (s : State), ∃ t, exec (.encode true true st u) s = .next t ∧
    t.plen = 52#32 ∧ t.pbuf = encodeTrain u ∧ (encodeTrain u).toList.length = 52 ∧
    (encodeTrain u)[0] = 8075#32 ∧ (encodeTrain u)[51] = 16150#32

/-- O44. `encode` is injective, because position `3 + 2i` is 2850 exactly when bit `i` is 1 (R181). -/
def Obligations.EncodeIsInjective : Prop :=
  (∀ (u : UnitCode) (i : Nat) (h : i < 24), (encodeTrain u)[3 + 2 * i] = 2850#32 ↔ u.toNat / 2 ^ i % 2 = 1) ∧
  (∀ u u' : UnitCode, encodeTrain u = encodeTrain u' → u = u')

/-- O45. A train just encoded is not a valid capture as it stands: the next VALIDATE and DECODE fail (R228). -/
def Obligations.EncodedTrainIsNotAValidCapture : Prop :=
  ∀ (u : UnitCode) (st : DevState) (s t : State), exec (.encode true true st u) s = .next t →
    exec .validate t = .next { t with status := 0x00000111#32 } ∧
    exec .decode t = .next { t with status := 0x00000211#32, result := 0x00000000#32 }

/-! ## The round trip -/

/-- O46. The bit-level inverse (R173): over `tail51` the unit code comes back, over `head51` the value is 0. -/
def Obligations.BitLevelInverse : Prop :=
  ∀ (u : UnitCode) (w : Pbuf),
    (HoldsTail51 w (encodeTrain u) →
      (∀ (k : Nat), k < 24 → ∃ b : Bool, (bits w)[k]? = some b ∧ b.toNat = u.toNat / 2 ^ k % 2) ∧
      value (bits w) = u.toNat) ∧
    (HoldsHead51 w (encodeTrain u) →
      (∀ (k : Nat), k < 24 → (bits w)[k]? = some false) ∧ value (bits w) = 0)

/-- O47. The round trip, corrected (R175), on the machine: for both windows, every unit code and every PULSE_DIV. -/
def Obligations.RoundTripOverBothWindows : Prop :=
  ∀ (u : UnitCode) (s : State), s.plen = 51#32 →
    (HoldsTail51 s.pbuf (encodeTrain u) →
      (s.pulseDiv.toNat = 33 ∨ s.pulseDiv.toNat = 34 ∨ s.pulseDiv.toNat = 35 →
        exec .validate s = .next { s with status := 0x00000103#32 } ∧
        exec .decode s =
          .next { s with status := 0x00000203#32, result := BitVec.ofNat 32 (0x80000000 + u.toNat) }) ∧
      (¬(s.pulseDiv.toNat = 33 ∨ s.pulseDiv.toNat = 34 ∨ s.pulseDiv.toNat = 35) →
        exec .validate s = .next { s with status := 0x00000111#32 } ∧
        exec .decode s = .next { s with status := 0x00000211#32, result := 0x00000000#32 })) ∧
    (HoldsHead51 s.pbuf (encodeTrain u) →
      (s.pulseDiv.toNat = 2 →
        exec .validate s = .next { s with status := 0x00000103#32 } ∧
        exec .decode s = .next { s with status := 0x00000203#32, result := 0x80000000#32 }) ∧
      (s.pulseDiv.toNat ≠ 2 →
        exec .validate s = .next { s with status := 0x00000111#32 } ∧
        exec .decode s = .next { s with status := 0x00000211#32, result := 0x00000000#32 }))

/-! ## Rules of the whole machine -/

/-- O48. Purity (R31): what a command does to the block depends on its word, PBUF, PLEN and PULSE_DIV only, and issuing
it again changes nothing more. -/
def Obligations.CommandsArePure : Prop :=
  (∀ (i : Instr) (w : Word) (s s' t t' : State), commandWord i = some w → s.pbuf = s'.pbuf → s.plen = s'.plen →
    s.pulseDiv = s'.pulseDiv → exec i s = .next t → exec i s' = .next t' →
    t.pbuf = t'.pbuf ∧ t.plen = t'.plen ∧ t.status = t'.status ∧
      (w = 0x20000000#32 → t.result = t'.result) ∧
      (w ≠ 0x20000000#32 → t.result = s.result ∧ t'.result = s'.result)) ∧
  (∀ (i : Instr) (w : Word) (s t : State), commandWord i = some w → exec i s = .next t → exec i t = .next t)

/-- O49. STATUS is rewritten by every command, with DONE 1 and LASTOP the command's opcode, and by nothing else
(R24). -/
def Obligations.StatusWrittenByCommandsOnly : Prop :=
  ∀ (i : Instr) (s : State), ∃ t, exec i s = .next t ∧
    match commandWord i with
    | some w => statusDONE t.status = true ∧ (statusLASTOP t.status).toNat = w.toNat / 2 ^ 28
    | none => t.status = s.status

/-- O50. RESULT is written by DECODE only (R25). -/
def Obligations.ResultWrittenByDecodeOnly : Prop :=
  ∀ (i : Instr) (s t : State), exec i s = .next t → commandWord i ≠ some 0x20000000#32 → t.result = s.result

/-- O51. PBUF and PLEN change only by a host write to them and by an ENCODE with both operands (R53, 10_state.md R34):
the mask says OP 3, bit 27 zero, UP and SP one. -/
def Obligations.TrainChangesOnlyByWritesAndEncode : Prop :=
  ∀ (i : Instr) (s t : State), exec i s = .next t →
    (t.pbuf ≠ s.pbuf → (∃ k d, i = .wrPbuf k d) ∨
      (∃ w, commandWord i = some w ∧ w &&& 0xFE000000#32 = 0x36000000#32 ∧ t.pbuf = encodeTrain (cmdUC w))) ∧
    (t.plen ≠ s.plen → (∃ d, i = .wrPlen d) ∨
      (∃ w, commandWord i = some w ∧ w &&& 0xFE000000#32 = 0x36000000#32 ∧ t.plen = 52#32))

/-- O52. The causes of the error codes (R190): after a command STATUS.ERR is 3 iff the word is illegal, 2 iff ENCODE
lacks an operand, 1 iff VALIDATE or DECODE met an invalid frame, else 0. -/
def Obligations.ErrorCodeNamesItsCause : Prop :=
  ∀ (i : Instr) (w : Word) (s : State), commandWord i = some w → ∃ t, exec i s = .next t ∧
    (statusERR t.status = 3#4 ↔ IllegalByR65 w) ∧
    (statusERR t.status = 2#4 ↔
      w &&& 0xF8000000#32 = 0x30000000#32 ∧ (w.getLsbD 26 = false ∨ w.getLsbD 25 = false)) ∧
    (statusERR t.status = 1#4 ↔ (w = 0x10000000#32 ∨ w = 0x20000000#32) ∧ ¬FrameValid s) ∧
    (statusERR t.status).toNat ≤ 3

/-- O53. The host's boundary (R135, R233): a unit code below `2^24` is assembled into the ENCODE that carries it, a
larger one is refused. -/
def Obligations.AssemblerRefusesLargeUnitCodes : Prop :=
  (∀ (u : Nat) (st : Option DevState), 2 ^ 24 ≤ u → asmENCODE (some u) st = none) ∧
  (∀ (u : Nat) (st : Option DevState), u < 2 ^ 24 → ∃ a, asmENCODE (some u) st = some a ∧
    decodeAccess a = .encode true st.isSome (st.getD .off) (BitVec.ofNat 24 u)) ∧
  (∀ st : Option DevState, ∃ a, asmENCODE none st = some a ∧
    decodeAccess a = .encode false st.isSome (st.getD .off) 0#24)
end

