-- ==== Sys2Proof/Laws/State.lean ====
section
/-! SUPPORT. One lemma per field per operation, true by rfl: no proof needs to unfold a record update. -/

namespace Sys2Proof.Machine

open Sys2Proof

@[simp] theorem storePbuf_pbuf (i : Fin 52) (d : Word) (s : State) : (storePbuf i d s).pbuf = s.pbuf.set i.val d i.isLt := rfl
@[simp] theorem storePbuf_plen (i : Fin 52) (d : Word) (s : State) : (storePbuf i d s).plen = s.plen := rfl
@[simp] theorem storePbuf_status (i : Fin 52) (d : Word) (s : State) : (storePbuf i d s).status = s.status := rfl
@[simp] theorem storePbuf_result (i : Fin 52) (d : Word) (s : State) : (storePbuf i d s).result = s.result := rfl
@[simp] theorem storePbuf_pulseDiv (i : Fin 52) (d : Word) (s : State) : (storePbuf i d s).pulseDiv = s.pulseDiv := rfl
@[simp] theorem storePbuf_pending (i : Fin 52) (d : Word) (s : State) : (storePbuf i d s).pending = s.pending := rfl
@[simp] theorem storePbuf_reads (i : Fin 52) (d : Word) (s : State) : (storePbuf i d s).reads = s.reads := rfl
@[simp] theorem storePbuf_resets (i : Fin 52) (d : Word) (s : State) : (storePbuf i d s).resets = s.resets := rfl

@[simp] theorem storePlen_pbuf (d : Word) (s : State) : (storePlen d s).pbuf = s.pbuf := rfl
@[simp] theorem storePlen_plen (d : Word) (s : State) : (storePlen d s).plen = d := rfl
@[simp] theorem storePlen_status (d : Word) (s : State) : (storePlen d s).status = s.status := rfl
@[simp] theorem storePlen_result (d : Word) (s : State) : (storePlen d s).result = s.result := rfl
@[simp] theorem storePlen_pulseDiv (d : Word) (s : State) : (storePlen d s).pulseDiv = s.pulseDiv := rfl
@[simp] theorem storePlen_pending (d : Word) (s : State) : (storePlen d s).pending = s.pending := rfl
@[simp] theorem storePlen_reads (d : Word) (s : State) : (storePlen d s).reads = s.reads := rfl
@[simp] theorem storePlen_resets (d : Word) (s : State) : (storePlen d s).resets = s.resets := rfl

@[simp] theorem loadTrain_pbuf (p : Pbuf) (n : Word) (s : State) : (loadTrain p n s).pbuf = p := rfl
@[simp] theorem loadTrain_plen (p : Pbuf) (n : Word) (s : State) : (loadTrain p n s).plen = n := rfl
@[simp] theorem loadTrain_status (p : Pbuf) (n : Word) (s : State) : (loadTrain p n s).status = s.status := rfl
@[simp] theorem loadTrain_result (p : Pbuf) (n : Word) (s : State) : (loadTrain p n s).result = s.result := rfl
@[simp] theorem loadTrain_pulseDiv (p : Pbuf) (n : Word) (s : State) : (loadTrain p n s).pulseDiv = s.pulseDiv := rfl
@[simp] theorem loadTrain_pending (p : Pbuf) (n : Word) (s : State) : (loadTrain p n s).pending = s.pending := rfl
@[simp] theorem loadTrain_reads (p : Pbuf) (n : Word) (s : State) : (loadTrain p n s).reads = s.reads := rfl
@[simp] theorem loadTrain_resets (p : Pbuf) (n : Word) (s : State) : (loadTrain p n s).resets = s.resets := rfl

@[simp] theorem returnRead_pbuf (v : Word) (s : State) : (returnRead v s).pbuf = s.pbuf := rfl
@[simp] theorem returnRead_plen (v : Word) (s : State) : (returnRead v s).plen = s.plen := rfl
@[simp] theorem returnRead_status (v : Word) (s : State) : (returnRead v s).status = s.status := rfl
@[simp] theorem returnRead_result (v : Word) (s : State) : (returnRead v s).result = s.result := rfl
@[simp] theorem returnRead_pulseDiv (v : Word) (s : State) : (returnRead v s).pulseDiv = s.pulseDiv := rfl
@[simp] theorem returnRead_pending (v : Word) (s : State) : (returnRead v s).pending = s.pending := rfl
@[simp] theorem returnRead_reads (v : Word) (s : State) : (returnRead v s).reads = v :: s.reads := rfl
@[simp] theorem returnRead_resets (v : Word) (s : State) : (returnRead v s).resets = s.resets := rfl

@[simp] theorem readWord_pbuf (a : Addr) (s : State) : (readWord a s).pbuf = s.pbuf := rfl
@[simp] theorem readWord_plen (a : Addr) (s : State) : (readWord a s).plen = s.plen := rfl
@[simp] theorem readWord_status (a : Addr) (s : State) : (readWord a s).status = s.status := rfl
@[simp] theorem readWord_result (a : Addr) (s : State) : (readWord a s).result = s.result := rfl
@[simp] theorem readWord_pulseDiv (a : Addr) (s : State) : (readWord a s).pulseDiv = s.pulseDiv := rfl
@[simp] theorem readWord_pending (a : Addr) (s : State) : (readWord a s).pending = s.pending := rfl
@[simp] theorem readWord_reads (a : Addr) (s : State) : (readWord a s).reads = hostRead s a :: s.reads := rfl
@[simp] theorem readWord_resets (a : Addr) (s : State) : (readWord a s).resets = s.resets := rfl

@[simp] theorem complete_pbuf (op : BitVec 4) (v : Bool) (s : State) : (complete op v s).pbuf = s.pbuf := rfl
@[simp] theorem complete_plen (op : BitVec 4) (v : Bool) (s : State) : (complete op v s).plen = s.plen := rfl
@[simp] theorem complete_status (op : BitVec 4) (v : Bool) (s : State) : (complete op v s).status = statusWord op .none v := rfl
@[simp] theorem complete_result (op : BitVec 4) (v : Bool) (s : State) : (complete op v s).result = s.result := rfl
@[simp] theorem complete_pulseDiv (op : BitVec 4) (v : Bool) (s : State) : (complete op v s).pulseDiv = s.pulseDiv := rfl
@[simp] theorem complete_pending (op : BitVec 4) (v : Bool) (s : State) : (complete op v s).pending = s.pending := rfl
@[simp] theorem complete_reads (op : BitVec 4) (v : Bool) (s : State) : (complete op v s).reads = s.reads := rfl
@[simp] theorem complete_resets (op : BitVec 4) (v : Bool) (s : State) : (complete op v s).resets = s.resets := rfl

@[simp] theorem raiseError_pbuf (op : BitVec 4) (e : ErrCode) (s : State) : (raiseError op e s).pbuf = s.pbuf := rfl
@[simp] theorem raiseError_plen (op : BitVec 4) (e : ErrCode) (s : State) : (raiseError op e s).plen = s.plen := rfl
@[simp] theorem raiseError_status (op : BitVec 4) (e : ErrCode) (s : State) : (raiseError op e s).status = statusWord op e false := rfl
@[simp] theorem raiseError_result (op : BitVec 4) (e : ErrCode) (s : State) : (raiseError op e s).result = s.result := rfl
@[simp] theorem raiseError_pulseDiv (op : BitVec 4) (e : ErrCode) (s : State) : (raiseError op e s).pulseDiv = s.pulseDiv := rfl
@[simp] theorem raiseError_pending (op : BitVec 4) (e : ErrCode) (s : State) : (raiseError op e s).pending = s.pending := rfl
@[simp] theorem raiseError_reads (op : BitVec 4) (e : ErrCode) (s : State) : (raiseError op e s).reads = s.reads := rfl
@[simp] theorem raiseError_resets (op : BitVec 4) (e : ErrCode) (s : State) : (raiseError op e s).resets = s.resets := rfl

@[simp] theorem storeResult_pbuf (v : Word) (s : State) : (storeResult v s).pbuf = s.pbuf := rfl
@[simp] theorem storeResult_plen (v : Word) (s : State) : (storeResult v s).plen = s.plen := rfl
@[simp] theorem storeResult_status (v : Word) (s : State) : (storeResult v s).status = s.status := rfl
@[simp] theorem storeResult_result (v : Word) (s : State) : (storeResult v s).result = v := rfl
@[simp] theorem storeResult_pulseDiv (v : Word) (s : State) : (storeResult v s).pulseDiv = s.pulseDiv := rfl
@[simp] theorem storeResult_pending (v : Word) (s : State) : (storeResult v s).pending = s.pending := rfl
@[simp] theorem storeResult_reads (v : Word) (s : State) : (storeResult v s).reads = s.reads := rfl
@[simp] theorem storeResult_resets (v : Word) (s : State) : (storeResult v s).resets = s.resets := rfl

@[simp] theorem takeReset_pbuf (s : State) : (takeReset s).pbuf = unspecifiedPbuf (s.resets + 1) := rfl
@[simp] theorem takeReset_plen (s : State) : (takeReset s).plen = 0#32 := rfl
@[simp] theorem takeReset_status (s : State) : (takeReset s).status = 0#32 := rfl
@[simp] theorem takeReset_result (s : State) : (takeReset s).result = 0#32 := rfl
@[simp] theorem takeReset_pulseDiv (s : State) : (takeReset s).pulseDiv = s.pulseDiv := rfl
@[simp] theorem takeReset_pending (s : State) : (takeReset s).pending = s.pending := rfl
@[simp] theorem takeReset_reads (s : State) : (takeReset s).reads = s.reads := rfl
@[simp] theorem takeReset_resets (s : State) : (takeReset s).resets = s.resets + 1 := rfl

@[simp] theorem pushEvent_pbuf (e : Event) (s : State) : (pushEvent e s).pbuf = s.pbuf := rfl
@[simp] theorem pushEvent_plen (e : Event) (s : State) : (pushEvent e s).plen = s.plen := rfl
@[simp] theorem pushEvent_status (e : Event) (s : State) : (pushEvent e s).status = s.status := rfl
@[simp] theorem pushEvent_result (e : Event) (s : State) : (pushEvent e s).result = s.result := rfl
@[simp] theorem pushEvent_pulseDiv (e : Event) (s : State) : (pushEvent e s).pulseDiv = s.pulseDiv := rfl
@[simp] theorem pushEvent_pending (e : Event) (s : State) : (pushEvent e s).pending = e :: s.pending := rfl
@[simp] theorem pushEvent_reads (e : Event) (s : State) : (pushEvent e s).reads = s.reads := rfl
@[simp] theorem pushEvent_resets (e : Event) (s : State) : (pushEvent e s).resets = s.resets := rfl

/-- Reads leave the block as it is. -/
@[simp] theorem readWord_toBlock (a : Addr) (s : State) : (readWord a s).toBlock = s.toBlock := rfl
@[simp] theorem returnRead_toBlock (v : Word) (s : State) : (returnRead v s).toBlock = s.toBlock := rfl

end Sys2Proof.Machine
end

