-- ==== Sys2Proof/Laws/Ops.lean ====
section
/-! SUPPORT. What each shared operation can do, said once. -/

namespace Sys2Proof.Machine

open Sys2Proof

/-! ## STATUS and RESULT words -/

@[simp] theorem statusWord_DONE (op : BitVec 4) (e : ErrCode) (v : Bool) : statusDONE (statusWord op e v) = true := by
  revert op; cases e <;> cases v <;> decide

@[simp] theorem statusWord_VOK (op : BitVec 4) (e : ErrCode) (v : Bool) : statusVOK (statusWord op e v) = v := by
  revert op; cases e <;> cases v <;> decide

@[simp] theorem statusWord_ERR (op : BitVec 4) (e : ErrCode) (v : Bool) :
    statusERR (statusWord op e v) = e.code := by
  revert op; cases e <;> cases v <;> decide

@[simp] theorem statusWord_LASTOP (op : BitVec 4) (e : ErrCode) (v : Bool) :
    statusLASTOP (statusWord op e v) = op := by
  revert op; cases e <;> cases v <;> decide

/-- The status of an illegal command (R194). -/
theorem statusWord_illegal (op : BitVec 4) :
    statusWord op .illegalCommand false = 0x31#32 + 0x100#32 * op.zeroExtend 32 := by
  revert op; decide

/-- RESULT as a number: `0x80000000 + u` for a field set whose state is off (R34). -/
theorem resultWord_off_toNat (u : UnitCode) : (resultWord ⟨u, .off⟩).toNat = 0x80000000 + u.toNat := by
  have h : u.toNat < 2 ^ 24 := u.isLt
  simp only [resultWord, DevState.bit, BitVec.toNat_append, BitVec.ofBool_true, BitVec.ofBool_false]
  rw [← Nat.shiftLeft_add_eq_or_of_lt (b := _) (i := 24) h,
    ← Nat.shiftLeft_add_eq_or_of_lt (i := 1 + 24), ← Nat.shiftLeft_add_eq_or_of_lt (i := 6 + (1 + 24))]
  all_goals simp [Nat.shiftLeft_eq] <;> omega

/-! ## Reads and writes of the register space -/

theorem hostRead_pbuf (s : State) (i : Fin 52) : hostRead s (addrPBUF i) = s.pbuf[i.val] := by
  have h : (addrPBUF i).toNat = i.val := by
    simp only [addrPBUF, BitVec.toNat_ofNat]; exact Nat.mod_eq_of_lt (by omega)
  simp [hostRead, h]

@[simp] theorem hostRead_plen (s : State) : hostRead s addrPLEN = s.plen := by simp [hostRead, addrPLEN]
@[simp] theorem hostRead_cmd (s : State) : hostRead s addrCMD = 0#32 := by
  simp [hostRead, addrPLEN, addrCMD, addrSTATUS, addrRESULT]
@[simp] theorem hostRead_status (s : State) : hostRead s addrSTATUS = s.status := by
  simp [hostRead, addrPLEN, addrSTATUS]
@[simp] theorem hostRead_result (s : State) : hostRead s addrRESULT = s.result := by
  simp [hostRead, addrPLEN, addrSTATUS, addrRESULT]

/-- What a host reads depends on the block alone. -/
theorem hostRead_congr {s t : State} (h : s.toBlock = t.toBlock) (a : Addr) : hostRead s a = hostRead t a := by
  have hp : s.pbuf = t.pbuf := congrArg Block.pbuf h
  have hl : s.plen = t.plen := congrArg Block.plen h
  have hs : s.status = t.status := congrArg Block.status h
  have hr : s.result = t.result := congrArg Block.result h
  simp only [hostRead, hp, hl, hs, hr]

/-- A store to `PBUF[i]` is what a read of any address sees of it. -/
theorem hostRead_storePbuf (s : State) (i : Fin 52) (d : Word) (a : Addr) :
    hostRead (storePbuf i d s) a = if a.toNat = i.val then d else hostRead s a := by
  have := i.isLt
  unfold hostRead
  by_cases ha : a.toNat < 52
  · simp only [ha, dif_pos, storePbuf_pbuf, Vector.getElem_set, eq_comm]
  · rw [if_neg (show ¬a.toNat = i.val by omega)]; simp [ha]

/-- A store to PLEN is what a read of any address sees of it. -/
theorem hostRead_storePlen (s : State) (d : Word) (a : Addr) :
    hostRead (storePlen d s) a = if a = addrPLEN then d else hostRead s a := by
  unfold hostRead
  by_cases ha : a.toNat < 52
  · have hne : a ≠ addrPLEN := by rintro rfl; exact absurd ha (by decide)
    simp [ha, hne]
  · by_cases hp : a = addrPLEN
    · simp only [dif_neg ha, if_pos hp, storePlen_plen]
    · simp [ha, hp]

/-! ## The comparator and the validator -/

theorem lenEq_iff (n : Nat) : lenEq n = true ↔ n = 51 := by simp [lenEq, LEN_RX, RAW_LENGTH]

theorem winIncl_iff (div v : Nat) : winIncl div v = true ↔ 450 * div ≤ v ∧ v ≤ 500 * div := by
  rw [winIncl, Bool.and_eq_true, decide_eq_true_iff, decide_eq_true_iff]; exact Iff.rfl

theorem winExcl_iff (v : Nat) : winExcl v = true ↔ 2700 < v ∧ v < 3000 := by
  rw [winExcl, Bool.and_eq_true, decide_eq_true_iff, decide_eq_true_iff]; exact Iff.rfl

/-- The verdict of a state (R100). -/
theorem validateTrain_iff (s : State) : validateTrain s.pulseDiv s.pbuf s.plen = true ↔ FrameValid s := by
  simp [validateTrain, lenEq_iff, winIncl_iff, pulse, FrameValid]

/-- Everything VALIDATE can do. -/
theorem runValidate_eq (s : State) :
    (FrameValid s ∧ runValidate s = complete 1#4 true s) ∨
    (¬FrameValid s ∧ runValidate s = raiseError 1#4 .invalidFrame s) := by
  rw [← validateTrain_iff]
  by_cases h : validateTrain s.pulseDiv s.pbuf s.plen = true <;> simp [runValidate, h]

/-- Everything DECODE can do. -/
theorem runDecode_eq (s : State) :
    (FrameValid s ∧ runDecode s = complete 2#4 true
      (storeResult (resultWord ⟨BitVec.ofNat 24 (value (bits s.pbuf)), .off⟩) s)) ∨
    (¬FrameValid s ∧ runDecode s = raiseError 2#4 .invalidFrame (storeResult noFieldSet s)) := by
  rw [← validateTrain_iff]
  by_cases h : validateTrain s.pulseDiv s.pbuf s.plen = true <;> simp [runDecode, decodeTrain, h]

/-- Everything ENCODE can do. -/
theorem runEncode_eq (up sp : Bool) (st : DevState) (uc : UnitCode) (s : State) :
    ((up = true ∧ sp = true) ∧ runEncode up sp st uc s = complete 3#4 false (loadTrain (encodeTrain uc) 52#32 s)) ∨
    (¬(up = true ∧ sp = true) ∧ runEncode up sp st uc s = raiseError 3#4 .missingField s) := by
  cases up <;> cases sp <;> simp [runEncode, encodeOperands, unitcodeOperand, stateOperand, LEN_TX, RAW_LENGTH]

/-- Everything a write to CMD can do. -/
theorem runCommandWord_cases (w : Word) (s : State) :
    (decodeCommand w = .ok .validate ∧ runCommandWord w s = runValidate s) ∨
    (decodeCommand w = .ok .decode ∧ runCommandWord w s = runDecode s) ∨
    (∃ up sp st uc, decodeCommand w = .ok (.encode up sp st uc) ∧
      runCommandWord w s = runEncode up sp st uc s) ∨
    (∃ e, decodeCommand w = .error e ∧ runCommandWord w s = raiseError (cmdOP w) .illegalCommand s) := by
  unfold runCommandWord
  rcases h : decodeCommand w with e | c
  · simp
  · cases c with
    | validate => exact .inl ⟨rfl, rfl⟩
    | decode => exact .inr (.inl ⟨rfl, rfl⟩)
    | encode up sp st uc => exact .inr (.inr (.inl ⟨up, sp, st, uc, rfl, rfl⟩))

/-! ## The step -/

/-- Everything a step can do. -/
theorem step_cases {s t : State} (h : step s = .next t) :
    (s.pending = [] ∧ t = s) ∨
    (∃ a rest, s.pending = .access a :: rest ∧ exec (decodeAccess a) { s with pending := rest } = .next t) ∨
    (∃ rest, s.pending = .reset :: rest ∧ t = takeReset { s with pending := rest }) := by
  unfold step nextEvent at h
  rcases hp : s.pending with _ | ⟨e, rest⟩
  · simp only [hp] at h; cases h; exact .inl ⟨rfl, rfl⟩
  · cases e with
    | access a => simp only [hp] at h; exact .inr (.inl ⟨a, rest, rfl, h⟩)
    | reset => simp only [hp] at h; cases h; exact .inr (.inr ⟨rest, rfl, rfl⟩)

end Sys2Proof.Machine
end

