-- ==== Sys2Proof/Laws/Codec.lean ====
section
/-! SUPPORT. Laws of the bit extractor, of the train builder and of the command words' fields. -/

namespace Sys2Proof.Machine

open Sys2Proof

/-! ## Bits and value -/

@[simp] theorem bits_length (p : Pbuf) : (bits p).length = 24 := by simp [bits]

theorem bits_getElem (p : Pbuf) (k : Nat) (h : k < (bits p).length) :
    (bits p)[k] = winExcl (p[2 * k + 2]'(by rw [bits_length] at h; omega)).toNat := by
  simp [bits, pulse]

@[simp] theorem value_nil : value [] = 0 := rfl
@[simp] theorem value_cons (x : Bool) (b : List Bool) : value (x :: b) = 2 * value b + x.toNat := rfl

theorem value_lt (b : List Bool) : value b < 2 ^ b.length := by
  induction b with
  | nil => decide
  | cons x b ih => cases x <;> simp [Nat.pow_succ] <;> omega

/-- Bit `k` of the value is element `k` of the sequence (R111). -/
theorem value_testBit (b : List Bool) (k : Nat) : (value b).testBit k = b.getD k false := by
  induction b generalizing k with
  | nil => simp
  | cons x b ih =>
    cases k with
    | zero => cases x <;> simp [Nat.testBit_zero, Nat.add_mod]
    | succ k =>
      rw [value_cons, Nat.testBit_succ, List.getD_cons_succ, ← ih k]
      congr 1
      cases x <;> simp only [Bool.toNat_true, Bool.toNat_false] <;> omega

/-! ## Trains -/

/-- Step 1 at one position: the pairs of the indices in `l` are low. -/
theorem lowPairs_foldl_getElem (l : List (Fin 25)) (t : Pbuf) (p : Nat) (h : p < 52) :
    (l.foldl (fun (t : Pbuf) k =>
      (t.set (2 * k.val) (duration T_SHORT)).set (2 * k.val + 1) (duration T_LOW)) t)[p] =
      if ∃ k ∈ l, k.val = p / 2 then (if p % 2 = 0 then duration T_SHORT else duration T_LOW) else t[p] := by
  induction l generalizing t with
  | nil => simp
  | cons k l ih =>
    rw [List.foldl_cons, ih]
    by_cases hl : ∃ j ∈ l, j.val = p / 2
    · have : ∃ j ∈ k :: l, j.val = p / 2 := hl.imp fun _ hj => ⟨List.mem_cons_of_mem _ hj.1, hj.2⟩
      rw [if_pos hl, if_pos this]
    · rw [if_neg hl]
      by_cases hk : k.val = p / 2
      · rw [if_pos ⟨k, List.mem_cons_self, hk⟩, Vector.getElem_set, Vector.getElem_set]
        rcases Nat.mod_two_eq_zero_or_one p with hp | hp
        · rw [if_neg (by omega), if_pos (by omega), if_pos hp]
        · rw [if_pos (by omega), if_neg (by omega)]
      · rw [if_neg, Vector.getElem_set, Vector.getElem_set, if_neg (by omega), if_neg (by omega)]
        rintro ⟨j, hj, he⟩
        rcases List.mem_cons.1 hj with rfl | hj
        · exact hk he
        · exact hl ⟨j, hj, he⟩

/-- Step 3 at one position: the pairs of the 1 bits whose indices are in `l` are high. -/
theorem highPairs_foldl_getElem (u : UnitCode) (l : List (Fin 24)) (t : Pbuf) (p : Nat) (h : p < 52) :
    (l.foldl (fun (t : Pbuf) i =>
      if unitcodeBit u i.val then
        (t.set (2 + 2 * i.val) (duration T_SHORT)).set (2 + 2 * i.val + 1) (duration T_HIGH)
      else t) t)[p] =
      if ∃ i ∈ l, 2 + 2 * i.val = p - p % 2 ∧ unitcodeBit u i.val = true then
        (if p % 2 = 0 then duration T_SHORT else duration T_HIGH) else t[p] := by
  induction l generalizing t with
  | nil => simp
  | cons k l ih =>
    rw [List.foldl_cons, ih]
    by_cases hl : ∃ i ∈ l, 2 + 2 * i.val = p - p % 2 ∧ unitcodeBit u i.val = true
    · rw [if_pos hl, if_pos (hl.imp fun _ hj => ⟨List.mem_cons_of_mem _ hj.1, hj.2⟩)]
    · rw [if_neg hl]
      by_cases hk : 2 + 2 * k.val = p - p % 2 ∧ unitcodeBit u k.val = true
      · have hex : ∃ i ∈ k :: l, 2 + 2 * i.val = p - p % 2 ∧ unitcodeBit u i.val = true :=
          ⟨k, List.mem_cons_self, hk⟩
        simp only [if_pos hex, if_pos hk.2, Vector.getElem_set]
        have := hk.1
        rcases Nat.mod_two_eq_zero_or_one p with hp | hp
        · rw [if_neg (by omega), if_pos (by omega), if_pos hp]
        · rw [if_pos (by omega), if_neg (by omega)]
      · have hex : ¬∃ i ∈ k :: l, 2 + 2 * i.val = p - p % 2 ∧ unitcodeBit u i.val = true := by
          rintro ⟨j, hj, he⟩
          rcases List.mem_cons.1 hj with hj | hj
          · exact hk (hj ▸ he)
          · exact hl ⟨j, hj, he⟩
        by_cases hu : unitcodeBit u k.val = true
        · have : ¬2 + 2 * k.val = p - p % 2 := fun hp => hk ⟨hp, hu⟩
          simp only [if_neg hex, if_pos hu, Vector.getElem_set]
          rw [if_neg (by omega), if_neg (by omega)]
        · simp only [if_neg hex, if_neg hu]

/-! ## Fields of an ENCODE command word: a header of 8 bits above the unit code -/

theorem and_ones (w : Word) : w &&& 0xFFFFFFFF#32 = w := by
  rw [show (0xFFFFFFFF#32 : Word) = BitVec.allOnes 32 by decide, BitVec.and_allOnes]

theorem append_uc_and_mask (c : BitVec 8) (uc : UnitCode) :
    ((c ++ uc : Word) &&& 0xF8000000#32) = (c &&& 0xF8#8) ++ 0#24 := by
  have h : (0xF8000000#32 : Word) = 0xF8#8 ++ 0#24 := by decide
  rw [h, BitVec.and_append, BitVec.and_zero]

/-- Every bit of such a word. -/
theorem append_uc_bit (c : BitVec 8) (uc : UnitCode) (i : Nat) :
    BitVec.getLsbD (w := 32) (c ++ uc) i = if i < 24 then uc.getLsbD i else c.getLsbD (i - 24) := by
  have h : BitVec.getLsbD (w := 8 + 24) (c ++ uc) i = _ := BitVec.getLsbD_append
  rw [show BitVec.getLsbD (w := 32) (c ++ uc) i = BitVec.getLsbD (w := 8 + 24) (c ++ uc) i from rfl, h]

theorem append_uc_getLsbD (c : BitVec 8) (uc : UnitCode) (i : Nat) :
    BitVec.getLsbD (w := 32) (c ++ uc) (24 + i) = c.getLsbD i := by
  rw [append_uc_bit, if_neg (by omega), show 24 + i - 24 = i by omega]

@[simp] theorem cmdUC_append (c : BitVec 8) (uc : UnitCode) : cmdUC (c ++ uc) = uc := by
  refine BitVec.eq_of_getLsbD_eq fun i hi => ?_
  simp only [cmdUC, BitVec.getLsbD_extractLsb', hi, decide_true, Bool.true_and, Nat.zero_add, append_uc_bit, if_true]

@[simp] theorem cmdOP_append (c : BitVec 8) (uc : UnitCode) : cmdOP (c ++ uc) = c.extractLsb' 4 4 := by
  refine BitVec.eq_of_getLsbD_eq fun i hi => ?_
  have h : 28 + i = 24 + (4 + i) := by omega
  simp only [cmdOP, BitVec.getLsbD_extractLsb', hi, decide_true, Bool.true_and, h, append_uc_getLsbD]

@[simp] theorem cmdZ27_append (c : BitVec 8) (uc : UnitCode) : cmdZ27 (c ++ uc) = c.getLsbD 3 :=
  append_uc_getLsbD c uc 3
@[simp] theorem cmdUP_append (c : BitVec 8) (uc : UnitCode) : cmdUP (c ++ uc) = c.getLsbD 2 :=
  append_uc_getLsbD c uc 2
@[simp] theorem cmdSP_append (c : BitVec 8) (uc : UnitCode) : cmdSP (c ++ uc) = c.getLsbD 1 :=
  append_uc_getLsbD c uc 1
@[simp] theorem cmdST_append (c : BitVec 8) (uc : UnitCode) : cmdST (c ++ uc) = c.getLsbD 0 :=
  append_uc_getLsbD c uc 0

/-- A command word is its header byte above its unit code field. -/
theorem append_header_uc (w : Word) : (w.extractLsb' 24 8 ++ cmdUC w : Word) = w := by
  refine BitVec.eq_of_getLsbD_eq fun i hi => ?_
  rw [append_uc_bit]
  by_cases h : i < 24
  · simp only [h, if_true, cmdUC, BitVec.getLsbD_extractLsb', decide_true, Bool.true_and, Nat.zero_add]
  · have h8 : i - 24 < 8 := by omega
    have he : 24 + (i - 24) = i := by omega
    simp only [h, if_false, BitVec.getLsbD_extractLsb', h8, decide_true, Bool.true_and, he]

end Sys2Proof.Machine
end

