-- ==== Sys2Proof/Laws/PerInstr.lean ====
section
/-! SUPPORT. Statements made for every instruction, one lemma per constructor. -/

namespace Sys2Proof.Laws.RowMatch

open Sys2Proof

/-- The access a well-formed instruction encodes to matches the `BUS` row of its own and no other; where that row is
WR_CMD, the word matches the instruction's own `CMD` row and no other, or none where the instruction is WR_CMD itself. -/
def Statement (i : Instr) : Prop :=
  i.wellFormed = true →
    busRowsMatching (encodeAccess i).pattern = [i.busMnemonic] ∧
    (i.busMnemonic = "WR_CMD" →
      commandRowsMatching (encodeAccess i).wdata = if i.mnemonic = "WR_CMD" then [] else [i.mnemonic])

theorem validate : Statement .validate := fun _ => by decide
theorem decode : Statement .decode := fun _ => by decide

theorem encode (up sp : Bool) (st : DevState) (uc : UnitCode) : Statement (.encode up sp st uc) := by
  intro _
  refine ⟨by simp only [encodeAccess, Access.pattern, Instr.busMnemonic]; decide, fun _ => ?_⟩
  have hm : (encodeHeader up sp st &&& 0xF8#8) = 0x30#8 := by cases up <;> cases sp <;> cases st <;> decide
  have hw : ((encodeHeader up sp st ++ uc : Word) &&& 0xF8000000#32) = 0x30000000#32 := by
    rw [Machine.append_uc_and_mask, hm]; decide
  have hne : ∀ v : Word, v &&& 0xF8000000#32 ≠ 0x30000000#32 → (encodeHeader up sp st ++ uc : Word) ≠ v := by
    rintro v hv rfl; exact hv hw
  simp only [commandRowsMatching, commandTable, encodeAccess, encodeCommand, Instr.mnemonic]
  have h1 := hne 0x10000000#32 (by decide)
  have h2 := hne 0x20000000#32 (by decide)
  rw [List.filter_cons_of_neg, List.filter_cons_of_neg, List.filter_cons_of_pos] <;>
    simp [Machine.and_ones, h1, h2, hw]

theorem wrPbuf (i : Fin 52) (wdata : Word) : Statement (.wrPbuf i wdata) := by
  rintro -
  refine ⟨?_, fun h => absurd h (by simp [Instr.busMnemonic, Instr.mnemonic])⟩
  simp only [encodeAccess, Access.pattern, Instr.busMnemonic, Instr.mnemonic]
  revert i; decide

theorem rdPbuf (i : Fin 52) : Statement (.rdPbuf i) := by
  rintro -
  refine ⟨?_, fun h => absurd h (by simp [Instr.busMnemonic, Instr.mnemonic])⟩
  simp only [encodeAccess, Access.pattern, Instr.busMnemonic, Instr.mnemonic]
  revert i; decide

theorem wrPlen (wdata : Word) : Statement (.wrPlen wdata) := by
  intro _
  refine ⟨?_, fun h => absurd h (by simp [Instr.busMnemonic, Instr.mnemonic])⟩
  simp only [encodeAccess, Access.pattern, Instr.busMnemonic, Instr.mnemonic]
  decide

theorem rdPlen : Statement .rdPlen := fun _ => by decide

theorem wrCmd (w : Word) : Statement (.wrCmd w) := by
  intro hw
  refine ⟨by simp only [encodeAccess, Access.pattern, Instr.busMnemonic, Instr.mnemonic]; decide, fun _ => ?_⟩
  simp only [Instr.wellFormed, isCommandWord, Bool.not_eq_true', Bool.or_eq_false_iff, beq_eq_false_iff_ne] at hw
  simp [commandRowsMatching, commandTable, encodeAccess, Instr.mnemonic, Machine.and_ones, hw.1.1, hw.1.2, hw.2]

theorem rdCmd : Statement .rdCmd := fun _ => by decide
theorem rdStatus : Statement .rdStatus := fun _ => by decide
theorem rdResult : Statement .rdResult := fun _ => by decide

theorem wrStatusResult (reg : ReadOnlyReg) (wdata : Word) : Statement (.wrStatusResult reg wdata) := by
  intro _
  refine ⟨?_, fun h => absurd h (by simp [Instr.busMnemonic, Instr.mnemonic])⟩
  simp only [encodeAccess, Access.pattern, Instr.busMnemonic, Instr.mnemonic]
  cases reg <;> decide

theorem reservedAddress (we : Bool) (addr : Addr) (wdata : Word) : Statement (.reservedAddress we addr wdata) := by
  intro h
  refine ⟨?_, fun h => absurd h (by simp [Instr.busMnemonic, Instr.mnemonic])⟩
  simp only [Instr.wellFormed, encodeAccess, Access.pattern, Instr.busMnemonic, Instr.mnemonic] at h ⊢
  revert we addr; decide

end Sys2Proof.Laws.RowMatch
end

