-- ==== Sys2Proof/Tests/Slice0.lean ====
section
/-! SUPPORT. Small tests; every expected value is the spec's (the encodings of 30_encoding.md, the vectors of
95_test_vectors.md, the worked examples of the rules). At the end, a witness for the hypotheses of each statement. -/

namespace Sys2Proof.Tests

open Sys2Proof Sys2Proof.Machine

/-! ## Helpers -/

def testPbuf (f : Nat → Nat) : Pbuf := ⟨((List.range 52).map fun i => BitVec.ofNat 32 (f i)).toArray, by simp⟩

/-- A state with PULSE_DIV `div`, PLEN `n`, entry `i` of PBUF at `f i`, STATUS and RESULT as given. -/
def testState (div n : Nat) (f : Nat → Nat) (status result : Word := 0#32) (pending : List Event := []) : State :=
  { pbuf := testPbuf f, plen := BitVec.ofNat 32 n, status := status, result := result,
    pulseDiv := BitVec.ofNat 16 div, pending := pending, reads := [], resets := 0 }

/-- A field of the next state. -/
def after {α : Type} (o : Host.Outcome State Fault Refusal) (f : State → α) : Option α :=
  match o with
  | .next t => some (f t)
  | .fault _ => none
  | .refused _ => none

/-- Entry 50 holds `v`, every other entry 0 (95_test_vectors.md 2.2). -/
def lastPulse (v : Nat) : Nat → Nat := fun i => if i = 50 then v else 0

/-- The window `tail51(encode(u))` or `head51(encode(u))` in a buffer. -/
def tailPbuf (u : UnitCode) : Nat → Nat := fun i => trainEntry u (i + 1)
def headPbuf (u : UnitCode) : Nat → Nat := fun i => trainEntry u i

/-! ## WellFormed refuses what is ill-formed -/

theorem test_wellFormed_wrCmd_of_legal_word : (Instr.wrCmd 0x10000000#32).wellFormed = false := by decide
theorem test_wellFormed_wrCmd_of_encode_word : (Instr.wrCmd 0x3612D687#32).wellFormed = false := by decide
theorem test_wellFormed_reserved_plen : (Instr.reservedAddress true 0x40#7 0#32).wellFormed = false := by decide
theorem test_wellFormed_reserved_pbuf : (Instr.reservedAddress false 0x33#7 0#32).wellFormed = false := by decide

/-! ## Decoding: words written out from R60, R62, R63, R68 -/

theorem test_decode_validate : decodeAccess ⟨true, 0b1000001#7, 0x10000000#32⟩ = .validate := by decide
theorem test_decode_decode : decodeAccess ⟨true, 0b1000001#7, 0x20000000#32⟩ = .decode := by decide
theorem test_decode_encode :
    decodeAccess ⟨true, 0b1000001#7, 0b00110111000000000000000000000101#32⟩ = .encode true true .on 5#24 := by decide
theorem test_decode_encode_state_only :
    decodeAccess ⟨true, 0b1000001#7, 0b00110010000000000000000000000000#32⟩ = .encode false true .off 0#24 := by decide
theorem test_decode_wrPbuf : decodeAccess ⟨true, 0b0110011#7, 7#32⟩ = .wrPbuf 51 7#32 := by decide
theorem test_decode_rdPbuf : decodeAccess ⟨false, 0b0000011#7, 0#32⟩ = .rdPbuf 3 := by decide
theorem test_decode_wrPlen : decodeAccess ⟨true, 0b1000000#7, 51#32⟩ = .wrPlen 51#32 := by decide
theorem test_decode_rdPlen : decodeAccess ⟨false, 0b1000000#7, 9#32⟩ = .rdPlen := by decide
theorem test_decode_wrCmd : decodeAccess ⟨true, 0b1000001#7, 0x10000001#32⟩ = .wrCmd 0x10000001#32 := by decide
theorem test_decode_rdCmd : decodeAccess ⟨false, 0b1000001#7, 0x10000000#32⟩ = .rdCmd := by decide
theorem test_decode_rdStatus : decodeAccess ⟨false, 0b1000010#7, 0#32⟩ = .rdStatus := by decide
theorem test_decode_rdResult : decodeAccess ⟨false, 0b1000011#7, 0#32⟩ = .rdResult := by decide
theorem test_decode_wrStatusResult :
    decodeAccess ⟨true, 0b1000011#7, 0xFFFFFFFF#32⟩ = .wrStatusResult .result 0xFFFFFFFF#32 := by decide
theorem test_decode_reserved_52 :
    decodeAccess ⟨true, 0b0110100#7, 7#32⟩ = .reservedAddress true 0x34#7 7#32 := by decide
theorem test_decode_reserved_7F :
    decodeAccess ⟨false, 0b1111111#7, 0#32⟩ = .reservedAddress false 0x7F#7 0#32 := by decide

/-- Rejection names its case of R65: V-I1, V-I2, V-I4. -/
theorem test_illegal_reasons :
    [decodeCommand 0x00000000#32, decodeCommand 0x10000001#32, decodeCommand 0x38000000#32].map
      (fun r => match r with | .error e => some e | .ok _ => none) =
      [some .opcode, some .reservedBits, some .bit27] := by decide

/-- Words of spec/opcode_table.json in its own numbering. -/
theorem test_table_words :
    [decodeTableWord 32 0x10000000, decodeTableWord 32 0x20000000, decodeTableWord 32 0x30000000,
      decodeTableWord 24 0x80A0B0, decodeTableWord 24 0x002030, decodeTableWord 8 0xC0, decodeTableWord 8 0x40,
      decodeTableWord 8 0xC1, decodeTableWord 8 0x41, decodeTableWord 8 0x42, decodeTableWord 8 0x43,
      decodeTableWord 8 0xC2, decodeTableWord 8 0x7F].map (Option.map Instr.mnemonic) =
      ["VALIDATE", "DECODE", "ENCODE", "WR_PBUF+i", "RD_PBUF+i", "WR_PLEN", "RD_PLEN", "WR_CMD", "RD_CMD",
        "RD_STATUS", "RD_RESULT", "WR_STATUS_RESULT", "RESERVED_ADDRESS"].map some := by decide

/-- Assembler examples of R68, V-E12's neighbour V-E9, and the refusal of `2^24` (R135). -/
theorem test_assembler_words :
    [asmENCODE (some 1234567) (some .off), asmENCODE (some 5) (some .on), asmENCODE none (some .off),
      asmENCODE (some 7) none, asmENCODE (some 16777216) (some .on)].map (Option.map Access.wdata) =
      [some 0x3612D687#32, some 0x37000005#32, some 0x32000000#32, some 0x34000007#32, none] := by decide

/-- P1: LOADTRAIN of 51 pulses is 52 writes; R69: SHIFT1 is 102 accesses plus one. -/
theorem test_assembler_lengths :
    (asmLOADTRAIN (List.replicate 51 950#32)).map List.length = some 52 ∧
      (asmSHIFT1 (testPbuf fun i => i)).length = 103 := by decide

/-! ## VALIDATE (V-V1, V-V2, V-V4, V-V5, V-V8) -/

theorem test_validate_window_34 :
    [15299, 15300, 17000, 17001, 4294967295].map
      (fun v => after (exec .validate (testState 34 51 (lastPulse v))) (·.status)) =
      [some 0x111#32, some 0x103#32, some 0x103#32, some 0x111#32, some 0x111#32] := by decide

theorem test_validate_lengths_and_zero_divisor :
    [(34, 0, 16150), (34, 50, 16150), (34, 52, 16150), (0, 51, 0), (0, 51, 1)].map
      (fun x => after (exec .validate (testState x.1 x.2.1 (lastPulse x.2.2))) (·.status)) =
      [some 0x111#32, some 0x111#32, some 0x111#32, some 0x103#32, some 0x111#32] := by decide

/-! ## DECODE (V-D2, V-D5, V-D6, V-D12) -/

theorem test_decode_one_pulse_at_entry_2 :
    [2700, 2701, 2999, 3000].map
      (fun v => after (exec .decode (testState 34 51 fun i => if i = 2 then v else lastPulse 16150 i)) (·.result)) =
      [some 0x80000000#32, some 0x80000001#32, some 0x80000001#32, some 0x80000000#32] := by decide

theorem test_decode_bit_23_and_failure :
    after (exec .decode (testState 34 51 fun i => if i = 48 then 2850 else lastPulse 16150 i))
        (fun t => (t.status, t.result)) = some (0x203#32, 0x80800000#32) ∧
      after (exec .decode (testState 34 51 (lastPulse 17001) 0x203#32 0x80800000#32))
        (fun t => (t.status, t.result)) = some (0x211#32, 0x00000000#32) := by decide

/-! ## ENCODE (V-E3, V-E5, V-E9, V-E10) -/

theorem test_encode_5 :
    after (exec (.encode true true .on 5#24) (testState 1 0 fun _ => 0))
      (fun t => (t.status, t.plen, t.pbuf.toList.take 10, t.pbuf.toList.drop 50)) =
      some (0x301#32, 52#32,
        [8075#32, 950#32, 950#32, 2850#32, 950#32, 1425#32, 950#32, 2850#32, 950#32, 1425#32],
        [950#32, 16150#32]) := by decide

theorem test_encode_bit_23_and_missing :
    after (exec (.encode true true .off 0x800000#24) (testState 1 0 fun _ => 0))
        (fun t => (t.pbuf[3], t.pbuf[47], t.pbuf[49])) = some (1425#32, 1425#32, 2850#32) ∧
      after (exec (.encode true false .off 7#24) (testState 1 9 fun _ => 4)) (fun t => (t.status, t.plen, t.pbuf[3])) =
        some (0x321#32, 9#32, 4#32) := by decide

/-! ## Host accesses (V-H1 to V-H7) and illegal commands (V-I1 to V-I6) -/

theorem test_wrPbuf : after (exec (.wrPbuf 50 16150#32) (testState 34 0 fun i => i))
    (fun t => (t.pbuf[49], t.pbuf[50], t.pbuf[51], t.plen)) = some (49#32, 16150#32, 51#32, 0#32) := by decide
theorem test_rdPbuf : after (exec (.rdPbuf 51) (testState 34 0 fun i => 1000 + i)) State.reads =
    some [1051#32] := by decide
theorem test_wrPlen : after (exec (.wrPlen 300#32) (testState 34 0 fun _ => 0)) (·.plen) = some 300#32 := by decide
theorem test_rdPlen : after (exec .rdPlen (testState 34 52 fun _ => 0)) State.reads = some [52#32] := by decide
theorem test_wrCmd_illegal :
    [0x00000000#32, 0x10000001#32, 0x20000100#32, 0x38000000#32, 0x40000000#32, 0xFFFFFFFF#32].map
      (fun w => after (exec (.wrCmd w) (testState 34 51 fun _ => 0)) (·.status)) =
      [some 0x031#32, some 0x131#32, some 0x231#32, some 0x331#32, some 0x431#32, some 0xF31#32] := by decide
theorem test_wrCmd_legal : after (exec (.wrCmd 0x32FFFFFF#32) (testState 34 51 fun _ => 0)) (·.status) =
    some 0x321#32 := by decide
theorem test_rdCmd : after (exec .rdCmd (testState 34 51 fun _ => 0)) (fun t => (t.reads, t.status)) =
    some ([0#32], 0#32) := by decide
theorem test_rdStatus : after (exec .rdStatus (testState 34 51 (fun _ => 0) 0x103#32)) (fun t => (t.reads, t.status)) =
    some ([0x103#32], 0x103#32) := by decide
theorem test_rdResult : after (exec .rdResult (testState 34 51 (fun _ => 0) 0x203#32 0x8012D687#32)) State.reads =
    some [0x8012D687#32] := by decide
theorem test_wrStatusResult : after (exec (.wrStatusResult .status 0xFFFFFFFF#32) (testState 34 51 (fun _ => 0) 0x103#32))
    (fun t => (t.status, t.result)) = some (0x103#32, 0#32) := by decide
theorem test_reservedAddress : after (exec (.reservedAddress false 0x34#7 0#32) (testState 34 51 fun _ => 5)) State.reads =
    some [0#32] := by decide

/-! ## Steps from reset -/

/-- V-D9: DECODE as the first access after reset. -/
theorem test_first_step_decode : after (step (State.reset.withFetchWord 32 0x20000000))
    (fun t => (t.status, t.result, t.pending)) = some (0x211#32, 0#32, []) := by decide

/-- R224: ENCODE may be the first command after reset. -/
theorem test_first_step_encode : after (step (State.reset.withFetchWord 32 0x36000001)) (fun t => (t.pbuf[3], t.plen)) =
    some (2850#32, 52#32) := by decide

/-- R220: reset gives the reset values from a state with a finished command. -/
theorem test_reset_event : after (step (testState 34 51 (fun _ => 0) 0x203#32 0x80000005#32 [.reset]))
    (fun t => (t.plen, t.status, t.result, t.pulseDiv)) = some (0#32, 0#32, 0#32, 34#16) := by decide

/-! ## Witnesses: a concrete state and operands that meet the hypotheses of each statement -/

def s0 : State := testState 34 0 fun _ => 0
def sValid : State := testState 34 51 (lastPulse 16150)
def sPending : State := testState 34 51 (lastPulse 16150) 0#32 0#32 [.access ⟨true, 0x41#7, 0x20000000#32⟩, .reset]

theorem witness_ZeroLengthGivesFalseVerdict : s0.plen = 0x00000000#32 := by decide

theorem witness_ResetEventGivesResetValues :
    (testState 34 51 (fun _ => 1) 0x103#32 0#32 [.reset]).pending = .reset :: [] := by decide

theorem witness_StepRunsDecodedAccess :
    sPending.pending = .access ⟨true, 0x41#7, 0x20000000#32⟩ :: [.reset] ∧ Instr.decode.wellFormed = true ∧
      sPending.pending = .access (encodeAccess .decode) :: [.reset] := by decide

theorem witness_IdleStepHoldsState : s0.pending = [] := by decide

theorem witness_StepKeepsRegistersAgree :
    RegistersAgree sPending ∧
      step sPending = .next { sPending with status := 0x203#32, result := 0x80000000#32, pending := [.reset] } := by
  refine ⟨?_, rfl⟩
  constructor <;> decide

theorem witness_StepKeepsPulseDivAndReads : step s0 = .next s0 := rfl

theorem witness_DecodeOfEncodeIsIdentity :
    (Instr.wrCmd 0x38000000#32).wellFormed = true ∧ (Instr.reservedAddress true 0x3F#7 1#32).wellFormed = true ∧
      (Instr.encode true false .on 0xFFFFFF#24).wellFormed = true := by decide

theorem witness_EncodeOfDecodeIsIdentity : (⟨true, 0x40#7, 51#32⟩ : Access).we = true := by decide

theorem witness_EncodeWordLayout : 0x37FFFFFF#32 &&& 0xF8000000#32 = 0x30000000#32 := by decide

theorem witness_IllegalWordsAreExactlyR65 :
    IllegalByR65 0x40000000#32 ∧ IllegalByR65 0x20000001#32 ∧ IllegalByR65 0x3FFFFFFF#32 ∧
      ¬IllegalByR65 0x37FFFFFF#32 ∧ ¬IllegalByR65 0x20000000#32 := by
  simp [IllegalByR65]

theorem witness_IllegalCommandWritesStatusOnly : IllegalByR65 0x0FFFFFFF#32 ∧ IllegalByR65 0x1FFFFFFF#32 := by
  simp [IllegalByR65]

theorem witness_WrCmdExecutesTheWord :
    ((0x37FFFFFF#32).toNat / 2 ^ 28 = 3 ∧ (0x37FFFFFF#32).getLsbD 27 = false) ∧
      (0x38000000#32 ≠ 0x10000000#32 ∧ 0x38000000#32 ≠ 0x20000000#32 ∧
        ¬((0x38000000#32).toNat / 2 ^ 28 = 3 ∧ (0x38000000#32).getLsbD 27 = false)) := by decide

theorem witness_WritePbufStoresOneEntry : (0 : Nat) < 52 ∧ 0 ≠ (51 : Fin 52).val := by decide

theorem witness_ReservedAddressReadsZeroIgnoresWrites :
    ∀ a ∈ [0x34#7, 0x3F#7, 0x44#7, 0x7F#7],
      (0x34 ≤ a.toNat ∧ a.toNat ≤ 0x3F) ∨ (0x44 ≤ a.toNat ∧ a.toNat ≤ 0x7F) := by decide

theorem witness_AccessesChangeOnlyTheirWord :
    (⟨false, 0x41#7, 0#32⟩ : Access).we = false ∧ (⟨true, 0x33#7, 5#32⟩ : Access).we = true ∧
      (⟨true, 0x33#7, 5#32⟩ : Access).addr ≠ 0x41#7 ∧ (0x32#7 : Addr) ≠ 0x33#7 := by decide

theorem witness_EveryAccessCompletes :
    after (exec (decodeAccess ⟨true, 0x40#7, 51#32⟩) s0) (fun t => decide (t.toBlock ≠ s0.toBlock)) = some true := by
  decide

theorem witness_ValidateWritesVerdict :
    FrameValid (testState 34 51 (lastPulse 15300)) ∧ FrameValid (testState 34 51 (lastPulse 17000)) ∧
      ¬FrameValid (testState 34 51 (lastPulse 15299)) ∧ ¬FrameValid (testState 34 51 (lastPulse 17001)) := by
  unfold FrameValid; decide

theorem witness_ValidateSeesOnlyTheLastPulse :
    (testPbuf (lastPulse 15300))[50] = (testPbuf fun _ => 15300)[50] ∧
      450 * (34#16).toNat ≤ (testPbuf (lastPulse 15300))[50].toNat ∧
      (testPbuf (lastPulse 15300))[50].toNat ≤ 500 * (34#16).toNat := by decide

theorem witness_ValidateRejects :
    52#32 ≠ 51#32 ∧ (testPbuf (lastPulse 15299))[50].toNat < 450 * (34#16).toNat ∧
      500 * (34#16).toNat < (testPbuf (lastPulse 17001))[50].toNat ∧
      ¬((testPbuf (lastPulse 17000))[50].toNat < 450 * (34#16).toNat ∨
        500 * (34#16).toNat < (testPbuf (lastPulse 17000))[50].toNat) ∧ (testState 34 50 fun _ => 0).plen = 50#32 := by
  decide

theorem witness_BitsSampleEvenEntries : (23 : Nat) < 24 := by decide

theorem witness_ValueIsWeightedSum : (List.replicate 24 true).length = 24 := by decide

theorem witness_DecodeWritesFieldSetOrError : FrameValid sValid ∧ ¬FrameValid s0 := by unfold FrameValid; decide

/-- Two states that differ at entries 0, 1, 3 and 51 and agree at every sampled one. -/
theorem witness_DecodeReadsOnlySampledEntries :
    let s := testState 34 51 fun i => if i % 2 = 0 then 16150 else 0
    let s' := testState 34 51 fun i => if i = 0 then 7 else if i % 2 = 0 then 16150 else 2850
    s.plen = s'.plen ∧ s.pulseDiv = s'.pulseDiv ∧ s.pbuf[50] = s'.pbuf[50] ∧
      (∀ (k : Nat) (h : k < 24), s.pbuf[2 * k + 2] = s'.pbuf[2 * k + 2]) ∧
      (∃ t, exec .decode s = .next t) ∧ ∃ t', exec .decode s' = .next t' := by
  refine ⟨by decide, by decide, by decide, by decide, ⟨_, rfl⟩, ⟨_, rfl⟩⟩

theorem witness_DecodeIsIdempotent :
    exec .decode sValid = .next { sValid with status := 0x203#32, result := 0x80000000#32 } := rfl

theorem witness_EncodeTrainClosedForm : (51 : Nat) < 52 := by decide

theorem witness_EncodeWritesTrainOrError :
    (false = false ∨ true = false) ∧ (true = true ∧ true = true) := by decide

theorem witness_EncodeIgnoresStateAndPulseDiv : ∃ t, exec (.encode true true .on 5#24) s0 = .next t := ⟨_, rfl⟩

theorem witness_EncodeIsInjective : (23 : Nat) < 24 ∧ encodeTrain 5#24 = encodeTrain 5#24 := by decide

theorem witness_EncodedTrainIsNotAValidCapture : ∃ t, exec (.encode true true .off 1#24) s0 = .next t := ⟨_, rfl⟩

theorem witness_BitLevelInverse :
    HoldsTail51 (testPbuf (tailPbuf 1234567#24)) (encodeTrain 1234567#24) ∧
      HoldsHead51 (testPbuf (headPbuf 1234567#24)) (encodeTrain 1234567#24) := by
  unfold HoldsTail51 HoldsHead51; decide

/-- For each of the four cases a state that meets its hypotheses: V-S1, V-S1x. -/
theorem witness_RoundTripOverBothWindows :
    (∃ s : State, s.plen = 51#32 ∧ HoldsTail51 s.pbuf (encodeTrain 1234567#24) ∧ s.pulseDiv.toNat = 33) ∧
    (∃ s : State, s.plen = 51#32 ∧ HoldsTail51 s.pbuf (encodeTrain 1234567#24) ∧
      ¬(s.pulseDiv.toNat = 33 ∨ s.pulseDiv.toNat = 34 ∨ s.pulseDiv.toNat = 35)) ∧
    (∃ s : State, s.plen = 51#32 ∧ HoldsHead51 s.pbuf (encodeTrain 1234567#24) ∧ s.pulseDiv.toNat = 2) ∧
    (∃ s : State, s.plen = 51#32 ∧ HoldsHead51 s.pbuf (encodeTrain 1234567#24) ∧ s.pulseDiv.toNat ≠ 2) := by
  refine ⟨⟨testState 33 51 (tailPbuf 1234567#24), ?_⟩, ⟨testState 36 51 (tailPbuf 1234567#24), ?_⟩,
    ⟨testState 2 51 (headPbuf 1234567#24), ?_⟩, ⟨testState 34 51 (headPbuf 1234567#24), ?_⟩⟩ <;>
  · simp only [HoldsTail51, HoldsHead51]; decide

/-- Two states that differ in STATUS and RESULT alone; one command of each kind. -/
theorem witness_CommandsArePure :
    let s' := testState 34 51 (lastPulse 16150) 0x211#32 0x80000007#32
    sValid.pbuf = s'.pbuf ∧ sValid.plen = s'.plen ∧ sValid.pulseDiv = s'.pulseDiv ∧
      commandWord .decode = some 0x20000000#32 ∧ commandWord (.wrCmd 0#32) = some 0#32 ∧ 0#32 ≠ 0x20000000#32 ∧
      (∃ t, exec .decode sValid = .next t) ∧ (∃ t', exec .decode s' = .next t') ∧
      (∃ t, exec (.wrCmd 0#32) sValid = .next t) ∧ ∃ t', exec (.wrCmd 0#32) s' = .next t' := by
  exact ⟨by decide, by decide, by decide, by decide, by decide, by decide, ⟨_, rfl⟩, ⟨_, rfl⟩, ⟨_, rfl⟩, ⟨_, rfl⟩⟩

theorem witness_ResultWrittenByDecodeOnly :
    (∃ t, exec .validate sValid = .next t) ∧ commandWord .validate ≠ some 0x20000000#32 := ⟨⟨_, rfl⟩, by decide⟩

theorem witness_TrainChangesOnlyByWritesAndEncode :
    after (exec (.encode true true .off 5#24) s0) (fun t => decide (t.pbuf ≠ s0.pbuf) && decide (t.plen ≠ s0.plen)) =
      some true := by decide

theorem witness_ErrorCodeNamesItsCause :
    commandWord (.encode true false .off 7#24) = some 0x34000007#32 := by decide

theorem witness_AssemblerRefusesLargeUnitCodes : 2 ^ 24 ≤ 16777216 ∧ 16777215 < 2 ^ 24 := by decide

end Sys2Proof.Tests
end

section
/-! PROOFS. Commands: every command is its word run by R67, and what a command reads (10_state.md R31). -/

namespace Sys2Proof.Machine

open Sys2Proof

/-! ## A command is its command word -/

theorem decodeCommand_encodeCommand (c : Command) : decodeCommand (encodeCommand c) = .ok c := by
  cases c with
  | validate => rfl
  | decode => rfl
  | encode up sp st uc =>
    have hOP : cmdOP (encodeHeader up sp st ++ uc) = 3#4 := by
      rw [cmdOP_append]; cases up <;> cases sp <;> cases st <;> rfl
    have hne : ∀ v : Word, cmdOP v ≠ 3#4 → encodeHeader up sp st ++ uc ≠ v := by
      rintro v hv rfl; exact hv hOP
    have hFields : cmdZ27 (encodeHeader up sp st ++ uc) = false ∧ cmdUP (encodeHeader up sp st ++ uc) = up ∧
        cmdSP (encodeHeader up sp st ++ uc) = sp ∧ DevState.ofBit (cmdST (encodeHeader up sp st ++ uc)) = st := by
      rw [cmdZ27_append, cmdUP_append, cmdSP_append, cmdST_append]
      cases up <;> cases sp <;> cases st <;> decide
    obtain ⟨hZ27, hUP, hSP, hST⟩ := hFields
    rw [encodeCommand, decodeCommand, if_neg (hne _ (by decide)), if_neg (hne _ (by decide)),
      if_pos ⟨hOP, hZ27⟩, hUP, hSP, hST, cmdUC_append]

/-- DECODE is one word (R63). -/
theorem decodeCommand_eq_decode_iff (w : Word) : decodeCommand w = .ok .decode ↔ w = 0x20000000#32 := by
  refine ⟨fun h => ?_, fun h => h ▸ rfl⟩
  unfold decodeCommand at h
  split at h
  · cases h
  · split at h
    · assumption
    · split at h <;> cases h

/-- An instruction with a command word does what its word does when written to CMD (R68). -/
theorem exec_of_commandWord {i : Instr} {w : Word} (h : commandWord i = some w) (s : State) :
    exec i s = .next (runCommandWord w s) := by
  cases i with
  | validate => cases h; rfl
  | decode => cases h; rfl
  | encode up sp st uc =>
    cases h
    simp only [exec, execEncode, runCommandWord, decodeCommand_encodeCommand]
  | wrCmd w' => cases h; rfl
  | _ => cases h

/-- What a command word runs, whatever the state: DECODE for its one word, for every other word one of the remaining
arms of R67. Two states that run the same word run the same arm. -/
theorem runCommandWord_arm (w : Word) :
    (w = 0x20000000#32 ∧ runCommandWord w = runDecode) ∨
    (w ≠ 0x20000000#32 ∧ (runCommandWord w = runValidate ∨
      (∃ up sp st uc, runCommandWord w = runEncode up sp st uc) ∨
      runCommandWord w = raiseError (cmdOP w) .illegalCommand)) := by
  by_cases hw : w = 0x20000000#32
  · subst hw; exact .inl ⟨rfl, rfl⟩
  · refine .inr ⟨hw, ?_⟩
    rw [← decodeCommand_eq_decode_iff] at hw
    rcases hd : decodeCommand w with e | c
    · exact .inr (.inr (funext fun s => by rw [runCommandWord, hd]))
    · cases c with
      | validate => exact .inl (funext fun s => by rw [runCommandWord, hd])
      | decode => exact absurd hd hw
      | encode up sp st uc =>
        exact .inr (.inl ⟨up, sp, st, uc, funext fun s => by rw [runCommandWord, hd]⟩)

/-! ## The commands by their verdict -/

theorem runValidate_of_valid {s : State} (h : FrameValid s) : runValidate s = complete 1#4 true s := by
  simpa [h] using runValidate_eq s

theorem runValidate_of_not_valid {s : State} (h : ¬FrameValid s) :
    runValidate s = raiseError 1#4 .invalidFrame s := by
  simpa [h] using runValidate_eq s

theorem runDecode_of_valid {s : State} (h : FrameValid s) :
    runDecode s = complete 2#4 true (storeResult (resultWord ⟨BitVec.ofNat 24 (value (bits s.pbuf)), .off⟩) s) := by
  simpa [h] using runDecode_eq s

theorem runDecode_of_not_valid {s : State} (h : ¬FrameValid s) :
    runDecode s = raiseError 2#4 .invalidFrame (storeResult noFieldSet s) := by
  simpa [h] using runDecode_eq s

theorem runEncode_of_present {up sp : Bool} (h : up = true ∧ sp = true) (st : DevState) (uc : UnitCode) (s : State) :
    runEncode up sp st uc s = complete 3#4 false (loadTrain (encodeTrain uc) 52#32 s) := by
  simpa [h] using runEncode_eq up sp st uc s

theorem runEncode_of_missing {up sp : Bool} (h : ¬(up = true ∧ sp = true)) (st : DevState) (uc : UnitCode)
    (s : State) : runEncode up sp st uc s = raiseError 3#4 .missingField s :=
  ((runEncode_eq up sp st uc s).resolve_left fun hp => h hp.1).2

/-! ## What a command leaves in RESULT -/

@[simp] theorem runValidate_result (s : State) : (runValidate s).result = s.result := by
  obtain ⟨-, e⟩ | ⟨-, e⟩ := runValidate_eq s <;> simp [e]

@[simp] theorem runEncode_result (up sp : Bool) (st : DevState) (uc : UnitCode) (s : State) :
    (runEncode up sp st uc s).result = s.result := by
  obtain ⟨-, e⟩ | ⟨-, e⟩ := runEncode_eq up sp st uc s <;> simp [e]

/-- Only DECODE's word writes RESULT (R25). -/
theorem runCommandWord_result_of_ne {w : Word} (hw : w ≠ 0x20000000#32) (s : State) :
    (runCommandWord w s).result = s.result := by
  obtain ⟨h, -⟩ | ⟨-, e | ⟨up, sp, st, uc, e⟩ | e⟩ := runCommandWord_arm w
  · exact absurd h hw
  · rw [e, runValidate_result]
  · rw [e, runEncode_result]
  · rw [e, raiseError_result]

/-! ## Purity (R31) -/

/-- The two states agree on everything of the state a command may read (R31). -/
structure CommandInputsAgree (s s' : State) : Prop where
  pbuf : s.pbuf = s'.pbuf
  plen : s.plen = s'.plen
  pulseDiv : s.pulseDiv = s'.pulseDiv

/-- The inputs agree and STATUS does too: what every command leaves behind in two states whose inputs agreed. -/
structure CommandOutputsAgree (t t' : State) : Prop extends CommandInputsAgree t t' where
  status : t.status = t'.status

section InputsAgree

variable {s s' : State}

theorem CommandInputsAgree.frameValid_iff (h : CommandInputsAgree s s') : FrameValid s ↔ FrameValid s' := by
  simp only [FrameValid, h.pbuf, h.plen, h.pulseDiv]

theorem CommandInputsAgree.storeResult (h : CommandInputsAgree s s') (v v' : Word) :
    CommandInputsAgree (storeResult v s) (storeResult v' s') :=
  ⟨h.pbuf, h.plen, h.pulseDiv⟩

theorem CommandInputsAgree.loadTrain (h : CommandInputsAgree s s') (p : Pbuf) (n : Word) :
    CommandInputsAgree (loadTrain p n s) (loadTrain p n s') :=
  ⟨rfl, rfl, h.pulseDiv⟩

theorem CommandInputsAgree.complete (h : CommandInputsAgree s s') (op : BitVec 4) (vok : Bool) :
    CommandOutputsAgree (complete op vok s) (complete op vok s') :=
  ⟨⟨h.pbuf, h.plen, h.pulseDiv⟩, rfl⟩

theorem CommandInputsAgree.raiseError (h : CommandInputsAgree s s') (op : BitVec 4) (e : ErrCode) :
    CommandOutputsAgree (raiseError op e s) (raiseError op e s') :=
  ⟨⟨h.pbuf, h.plen, h.pulseDiv⟩, rfl⟩

end InputsAgree

/-- A command's effect reads nothing but its inputs, and running it again changes nothing. -/
structure PureCommand (f : State → State) : Prop where
  outputsAgree : ∀ {s s' : State}, CommandInputsAgree s s' → CommandOutputsAgree (f s) (f s')
  idempotent : ∀ s : State, f (f s) = f s

/-- The verdict is taken from fields VALIDATE does not write, so the second run takes the same branch. -/
theorem pureCommand_runValidate : PureCommand runValidate where
  outputsAgree {s s'} h := by
    by_cases hv : FrameValid s
    · rw [runValidate_of_valid hv, runValidate_of_valid (h.frameValid_iff.1 hv)]
      exact h.complete _ _
    · rw [runValidate_of_not_valid hv, runValidate_of_not_valid (mt h.frameValid_iff.2 hv)]
      exact h.raiseError _ _
  idempotent s := by
    by_cases hv : FrameValid s
    · rw [runValidate_of_valid hv]; exact runValidate_of_valid (s := complete 1#4 true s) hv
    · rw [runValidate_of_not_valid hv]
      exact runValidate_of_not_valid (s := raiseError 1#4 .invalidFrame s) hv

/-- DECODE writes neither PBUF nor PLEN, so the second run samples the same train. -/
theorem pureCommand_runDecode : PureCommand runDecode where
  outputsAgree {s s'} h := by
    by_cases hv : FrameValid s
    · rw [runDecode_of_valid hv, runDecode_of_valid (h.frameValid_iff.1 hv)]
      exact (h.storeResult _ _).complete _ _
    · rw [runDecode_of_not_valid hv, runDecode_of_not_valid (mt h.frameValid_iff.2 hv)]
      exact (h.storeResult _ _).raiseError _ _
  idempotent s := by
    by_cases hv : FrameValid s
    · rw [runDecode_of_valid hv]; exact runDecode_of_valid (s := complete 2#4 true (storeResult _ s)) hv
    · rw [runDecode_of_not_valid hv]
      exact runDecode_of_not_valid (s := raiseError 2#4 .invalidFrame (storeResult noFieldSet s)) hv

/-- ENCODE overwrites PBUF and PLEN whole with what its operands alone determine. -/
theorem pureCommand_runEncode (up sp : Bool) (st : DevState) (uc : UnitCode) :
    PureCommand (runEncode up sp st uc) where
  outputsAgree h := by
    by_cases hp : up = true ∧ sp = true
    · simp only [runEncode_of_present hp]; exact (h.loadTrain _ _).complete _ _
    · simp only [runEncode_of_missing hp]; exact h.raiseError _ _
  idempotent s := by
    by_cases hp : up = true ∧ sp = true
    · simp only [runEncode_of_present hp]; rfl
    · simp only [runEncode_of_missing hp]; rfl

theorem pureCommand_raiseError (op : BitVec 4) (e : ErrCode) : PureCommand (raiseError op e) where
  outputsAgree h := h.raiseError op e
  idempotent _ := rfl

theorem pureCommand_runCommandWord (w : Word) : PureCommand (runCommandWord w) := by
  obtain ⟨-, e⟩ | ⟨-, e | ⟨up, sp, st, uc, e⟩ | e⟩ := runCommandWord_arm w <;> rw [e]
  · exact pureCommand_runDecode
  · exact pureCommand_runValidate
  · exact pureCommand_runEncode up sp st uc
  · exact pureCommand_raiseError _ _

/-- RESULT after DECODE does not depend on what RESULT was before. -/
theorem runDecode_result_congr {s s' : State} (h : CommandInputsAgree s s') :
    (runDecode s).result = (runDecode s').result := by
  by_cases hv : FrameValid s
  · rw [runDecode_of_valid hv, runDecode_of_valid (h.frameValid_iff.1 hv), h.pbuf]; rfl
  · rw [runDecode_of_not_valid hv, runDecode_of_not_valid (mt h.frameValid_iff.2 hv)]; rfl

/-- Settles O48: every command runs its word (`exec_of_commandWord`), and every arm of a command word is a pure
command. -/
theorem commandsArePure : Obligations.CommandsArePure := by
  unfold Obligations.CommandsArePure
  refine ⟨fun i w s s' t t' hw hpbuf hplen hdiv ht ht' => ?_, fun i w s t hw ht => ?_⟩
  · have hIn : CommandInputsAgree s s' := ⟨hpbuf, hplen, hdiv⟩
    rw [exec_of_commandWord hw] at ht ht'
    cases ht; cases ht'
    have hOut := (pureCommand_runCommandWord w).outputsAgree hIn
    refine ⟨hOut.pbuf, hOut.plen, hOut.status, ?_, fun hne => ?_⟩
    · rintro rfl; exact runDecode_result_congr hIn
    · exact ⟨runCommandWord_result_of_ne hne s, runCommandWord_result_of_ne hne s'⟩
  · rw [exec_of_commandWord hw] at ht ⊢
    cases ht
    rw [(pureCommand_runCommandWord w).idempotent]

end Sys2Proof.Machine
end

section
/-! PROOFS. Command words: legal and illegal ones (30_encoding.md R63, R65) and what a write of each to CMD does
(R67). -/

namespace Sys2Proof.Machine

open Sys2Proof

/-! ## The fields of a command word as numbers (R62) -/

theorem cmdOP_toNat (w : Word) : (cmdOP w).toNat = w.toNat / 2 ^ 28 := by
  rw [cmdOP, BitVec.extractLsb'_toNat, Nat.shiftRight_eq_div_pow, Nat.mod_eq_of_lt (by omega)]

theorem cmdOP_eq_iff (w : Word) (op : BitVec 4) : cmdOP w = op ↔ w.toNat / 2 ^ 28 = op.toNat := by
  rw [← BitVec.toNat_inj, cmdOP_toNat]

theorem zeroExtend_cmdOP (w : Word) : (cmdOP w).zeroExtend 32 = w >>> 28 := by
  refine BitVec.eq_of_toNat_eq ?_
  rw [BitVec.toNat_setWidth, cmdOP_toNat, BitVec.toNat_ushiftRight, Nat.shiftRight_eq_div_pow]
  omega

theorem cmdUC_eq_ofNat (w : Word) : cmdUC w = BitVec.ofNat 24 (w.toNat % 2 ^ 24) := by
  refine BitVec.eq_of_toNat_eq ?_
  simp [cmdUC]

/-! ## Legal words -/

/-- The words of the first three arms of R67: those with a command (R63). -/
def IsLegalWord (w : Word) : Prop :=
  w = 0x10000000#32 ∨ w = 0x20000000#32 ∨ (cmdOP w = 3#4 ∧ cmdZ27 w = false)

/-- ENCODE's mask and match are its two conditions: both look at the header byte alone. -/
theorem and_encodeMask_iff (w : Word) :
    w &&& 0xF8000000#32 = 0x30000000#32 ↔ cmdOP w = 3#4 ∧ cmdZ27 w = false := by
  rw [← append_header_uc w, append_uc_and_mask, cmdOP_append, cmdZ27_append]
  generalize w.extractLsb' 24 8 = header
  revert header; decide

theorem isCommandWord_iff (w : Word) : isCommandWord w = true ↔ IsLegalWord w := by
  simp [isCommandWord, IsLegalWord, ← and_encodeMask_iff, or_assoc]

/-- The three cases of R65 leave exactly the legal words over. -/
theorem illegalByR65_iff (w : Word) : IllegalByR65 w ↔ ¬IsLegalWord w := by
  have hValidate : w = 0x10000000#32 ↔ w.toNat = 0x10000000 := BitVec.toNat_inj.symm
  have hDecode : w = 0x20000000#32 ↔ w.toNat = 0x20000000 := BitVec.toNat_inj.symm
  have hEncode : cmdOP w = 3#4 ↔ w.toNat / 2 ^ 28 = 3 := cmdOP_eq_iff w 3#4
  rw [IsLegalWord, hValidate, hDecode, hEncode, IllegalByR65]
  cases h : w.getLsbD 27 <;> simp only [cmdZ27, h, reduceCtorEq, and_true, and_false, or_false] <;> omega

/-! ## The decoding procedure on each kind of word (R67) -/

theorem decodeCommand_of_encode {w : Word} (hOP : cmdOP w = 3#4) (hZ27 : cmdZ27 w = false) :
    decodeCommand w = .ok (.encode (cmdUP w) (cmdSP w) (.ofBit (cmdST w)) (cmdUC w)) := by
  have hne : ∀ v : Word, cmdOP v ≠ 3#4 → w ≠ v := by rintro v hv rfl; exact hv hOP
  rw [decodeCommand, if_neg (hne _ (by decide)), if_neg (hne _ (by decide)), if_pos ⟨hOP, hZ27⟩]

theorem decodeCommand_of_not_legal {w : Word} (h : ¬IsLegalWord w) :
    decodeCommand w = .error (illegalReason w) := by
  simp only [IsLegalWord, not_or] at h
  obtain ⟨hValidate, hDecode, hEncode⟩ := h
  rw [decodeCommand, if_neg hValidate, if_neg hDecode, if_neg hEncode]

theorem decodeCommand_of_legal {w : Word} (h : IsLegalWord w) : ∃ c, decodeCommand w = .ok c := by
  obtain rfl | rfl | ⟨hOP, hZ27⟩ := h
  · exact ⟨.validate, rfl⟩
  · exact ⟨.decode, rfl⟩
  · exact ⟨_, decodeCommand_of_encode hOP hZ27⟩

theorem decodeCommand_error_iff (w : Word) : (∃ e, decodeCommand w = .error e) ↔ ¬IsLegalWord w := by
  refine ⟨fun ⟨e, he⟩ hLegal => ?_, fun h => ⟨_, decodeCommand_of_not_legal h⟩⟩
  obtain ⟨c, hc⟩ := decodeCommand_of_legal hLegal
  cases he.symm.trans hc

/-! ## What a write to CMD does -/

theorem runCommandWord_of_encode {w : Word} (hOP : cmdOP w = 3#4) (hZ27 : cmdZ27 w = false) (s : State) :
    runCommandWord w s = runEncode (cmdUP w) (cmdSP w) (.ofBit (cmdST w)) (cmdUC w) s := by
  rw [runCommandWord, decodeCommand_of_encode hOP hZ27]

theorem runCommandWord_of_not_legal {w : Word} (h : ¬IsLegalWord w) (s : State) :
    runCommandWord w s = raiseError (cmdOP w) .illegalCommand s := by
  rw [runCommandWord, decodeCommand_of_not_legal h]

theorem exec_wrCmd (w : Word) (s : State) : exec (.wrCmd w) s = .next (runCommandWord w s) := rfl

/-- The effect of an illegal word (R194), its STATUS word spelled out. -/
theorem exec_wrCmd_of_not_legal {w : Word} (h : ¬IsLegalWord w) (s : State) :
    exec (.wrCmd w) s = .next { s with status := 0x31#32 + 0x100#32 * (w >>> 28) } := by
  rw [exec_wrCmd, runCommandWord_of_not_legal h, raiseError, statusWord_illegal, zeroExtend_cmdOP]

/-! ## STATUS.LASTOP after a command (R24) -/

@[simp] theorem runValidate_LASTOP (s : State) : statusLASTOP (runValidate s).status = 1#4 := by
  obtain ⟨-, e⟩ | ⟨-, e⟩ := runValidate_eq s <;> simp [e]

@[simp] theorem runDecode_LASTOP (s : State) : statusLASTOP (runDecode s).status = 2#4 := by
  obtain ⟨-, e⟩ | ⟨-, e⟩ := runDecode_eq s <;> simp [e]

@[simp] theorem runEncode_LASTOP (up sp : Bool) (st : DevState) (uc : UnitCode) (s : State) :
    statusLASTOP (runEncode up sp st uc s).status = 3#4 := by
  obtain ⟨-, e⟩ | ⟨-, e⟩ := runEncode_eq up sp st uc s <;> simp [e]

/-- Every arm of R67 writes the word's own bits 31:28 to LASTOP. -/
theorem runCommandWord_LASTOP (w : Word) (s : State) : statusLASTOP (runCommandWord w s).status = cmdOP w := by
  by_cases h : IsLegalWord w
  · obtain rfl | rfl | ⟨hOP, hZ27⟩ := h
    · exact runValidate_LASTOP s
    · exact runDecode_LASTOP s
    · rw [runCommandWord_of_encode hOP hZ27, runEncode_LASTOP, hOP]
  · rw [runCommandWord_of_not_legal h, raiseError_status, statusWord_LASTOP]

/-! ## The obligations -/

/-- Settles O14: the decoder, the legal-word test and R65 all agree on `IsLegalWord`. -/
theorem illegalWordsAreExactlyR65 : Obligations.IllegalWordsAreExactlyR65 := by
  unfold Obligations.IllegalWordsAreExactlyR65
  refine ⟨fun w => ?_, fun w => ?_, fun w s h => ?_, by simp [IllegalByR65], by simp [IllegalByR65]⟩
  · rw [decodeCommand_error_iff, illegalByR65_iff]
  · rw [illegalByR65_iff, ← isCommandWord_iff, Bool.not_eq_true]
  · refine ⟨statusWord (cmdOP w) .illegalCommand false, statusWord_ERR _ _ _, ?_⟩
    rw [exec_wrCmd, runCommandWord_of_not_legal ((illegalByR65_iff w).1 h), raiseError]

/-- Settles O16: one clause per arm of R67, then LASTOP (`runCommandWord_LASTOP`). -/
theorem wrCmdExecutesTheWord : Obligations.WrCmdExecutesTheWord := by
  unfold Obligations.WrCmdExecutesTheWord
  refine ⟨fun s => rfl, fun s => rfl, fun w s hOP hZ27 => ?_, fun w s hValidate hDecode hEncode => ?_,
    fun w s => ⟨_, exec_wrCmd w s, ?_⟩⟩
  · rw [exec_wrCmd, runCommandWord_of_encode ((cmdOP_eq_iff w 3#4).2 hOP) hZ27, cmdUC_eq_ofNat]
    rfl
  · refine exec_wrCmd_of_not_legal ?_ s
    rintro (h | h | ⟨hOP, hZ27⟩)
    · exact hValidate h
    · exact hDecode h
    · exact hEncode ⟨(cmdOP_eq_iff w 3#4).1 hOP, hZ27⟩
  · rw [runCommandWord_LASTOP, cmdOP_toNat]

end Sys2Proof.Machine
end

section
/-! PROOFS. The comparator: its constants, its three comparisons, and the emitted pulses against the two windows
(40_comparator.md R81, R83, R84, R85). -/

namespace Sys2Proof.Machine

/-! ## The emitted pulses and the window bounds as numbers (R81) -/

@[simp] theorem B_LO_eq : B_LO = 2700 := rfl
@[simp] theorem B_HI_eq : B_HI = 3000 := rfl
@[simp] theorem T_SHORT_eq : T_SHORT = 950 := rfl
@[simp] theorem T_LOW_eq : T_LOW = 1425 := rfl
@[simp] theorem T_HIGH_eq : T_HIGH = 2850 := rfl
@[simp] theorem T_HDR_eq : T_HDR = 8075 := rfl
@[simp] theorem T_FTR_eq : T_FTR = 16150 := rfl

theorem winExcl_eq_false_iff (v : Nat) : winExcl v = false ↔ v ≤ 2700 ∨ 3000 ≤ v := by
  rw [← Bool.not_eq_true, winExcl_iff]; omega

/-! ## The obligations -/

/-- Settles O28. -/
theorem comparisonsAreExact : Obligations.ComparisonsAreExact := by
  unfold Obligations.ComparisonsAreExact
  exact ⟨lenEq_iff, winIncl_iff, winExcl_iff⟩

/-- Settles O29: the constants by evaluation, the bit classifier at each pulse, then the validate window, where each
pulse leaves linear bounds on PULSE_DIV. -/
theorem emittedPulsesAgainstWindows : Obligations.EmittedPulsesAgainstWindows := by
  unfold Obligations.EmittedPulsesAgainstWindows
  refine ⟨rfl, rfl, B_LO_eq, B_HI_eq, T_SHORT_eq, T_LOW_eq, T_HIGH_eq, T_HDR_eq, T_FTR_eq, fun _ => ⟨rfl, rfl⟩,
    ?high, ?short, ?low, ?hdr, ?ftr, fun div => ?window⟩
  case high => simp [winExcl_iff]
  case short => simp [winExcl_eq_false_iff]
  case low => simp [winExcl_eq_false_iff]
  case hdr => simp [winExcl_eq_false_iff]
  case ftr => simp [winExcl_eq_false_iff]
  case window =>
    simp only [winIncl_iff, T_FTR_eq, T_SHORT_eq, T_LOW_eq, T_HIGH_eq, T_HDR_eq]
    refine ⟨?_, ?_, ?_, ?_, ?_⟩ <;> omega

end Sys2Proof.Machine
end

section
/-! PROOFS. VALIDATE: the verdict in plain numbers (41_validate.md R100, R102) and the STATUS words it writes (R103). -/

namespace Sys2Proof.Machine

open Sys2Proof

/-! ## The verdict -/

/-- The verdict on any buffer and length, in plain numbers: of the buffer only entry 50 is looked at (R100, R102). -/
theorem validateTrain_eq_true_iff (div : BitVec 16) (p : Pbuf) (n : Word) :
    validateTrain div p n = true ↔ n = 51#32 ∧ 450 * div.toNat ≤ p[50].toNat ∧ p[50].toNat ≤ 500 * div.toNat := by
  have hLen : n.toNat = 51 ↔ n = 51#32 := BitVec.toNat_inj (y := 51#32)
  rw [validateTrain, Bool.and_eq_true, lenEq_iff, winIncl_iff, pulse, hLen]

/-! ## What VALIDATE does -/

/-- The verdict true (R103); `statusWord 1#4 .none true` evaluates to the literal. -/
theorem exec_validate_of_valid {s : State} (h : FrameValid s) :
    exec .validate s = .next { s with status := 0x00000103#32 } :=
  congrArg Host.Outcome.next (runValidate_of_valid h)

/-- The verdict false, mirrored as INVALID_FRAME (R103); here the word is `statusWord 1#4 .invalidFrame false`. -/
theorem exec_validate_of_not_valid {s : State} (h : ¬FrameValid s) :
    exec .validate s = .next { s with status := 0x00000111#32 } :=
  congrArg Host.Outcome.next (runValidate_of_not_valid h)

/-! ## The obligations -/

/-- Settles O30: the access decodes by evaluation, then one clause per verdict. -/
theorem validateWritesVerdict : Obligations.ValidateWritesVerdict := by
  unfold Obligations.ValidateWritesVerdict
  exact ⟨rfl, fun _ => ⟨exec_validate_of_valid, exec_validate_of_not_valid⟩⟩

/-- Settles O31: both clauses are read off the verdict in plain numbers (`validateTrain_eq_true_iff`). -/
theorem validateSeesOnlyTheLastPulse : Obligations.ValidateSeesOnlyTheLastPulse := by
  unfold Obligations.ValidateSeesOnlyTheLastPulse
  refine ⟨fun div p q n hLast => ?_, fun div p hLo hHi => ?_⟩
  · rw [Bool.eq_iff_iff, validateTrain_eq_true_iff, validateTrain_eq_true_iff, hLast]
  · exact (validateTrain_eq_true_iff div p 51#32).2 ⟨rfl, hLo, hHi⟩

end Sys2Proof.Machine
end

section
/-! PROOFS. DECODE: the sampled bits (42_decode.md R110), their value (R111), and the words DECODE writes (R112,
R114). -/

namespace Sys2Proof.Machine

open Sys2Proof

/-! ## The sampled bits (R110) -/

/-- Bit `k` classifies entry `2k + 2`. -/
theorem bits_getElem?_of_lt (p : Pbuf) {k : Nat} (h : k < 24) :
    (bits p)[k]? = some (winExcl p[2 * k + 2].toNat) := by
  have hk : k < (bits p).length := by rwa [bits_length]
  rw [List.getElem?_eq_getElem hk, bits_getElem]

/-- The classifier in plain numbers (R85). -/
theorem winExcl_toNat_iff (v : Word) : winExcl v.toNat = true ↔ IsOnePulse v := winExcl_iff v.toNat

/-! ## Their value (R111) -/

/-- The accumulation read from its last step: it doubles the weights of all earlier bits and adds `b[0]` with weight
1. -/
theorem value_eq_sum (b : List Bool) : value b = ∑ k ∈ Finset.range b.length, (b.getD k false).toNat * 2 ^ k := by
  induction b with
  | nil => rfl
  | cons x b ih =>
    have hTail : 2 * ∑ k ∈ Finset.range b.length, (b.getD k false).toNat * 2 ^ k =
        ∑ k ∈ Finset.range b.length, ((x :: b).getD (k + 1) false).toNat * 2 ^ (k + 1) := by
      rw [Finset.mul_sum]
      refine Finset.sum_congr rfl fun k _ => ?_
      rw [List.getD_cons_succ, pow_succ', mul_left_comm]
    rw [value_cons, ih, hTail, List.length_cons, Finset.sum_range_succ', List.getD_cons_zero, pow_zero, mul_one]

theorem value_bits_lt (p : Pbuf) : value (bits p) < 2 ^ 24 := by
  simpa using value_lt (bits p)

theorem value_bits_testBit_iff (p : Pbuf) {k : Nat} (h : k < 24) :
    (value (bits p)).testBit k = true ↔ IsOnePulse p[2 * k + 2] := by
  rw [value_testBit, List.getD_eq_getElem?_getD, bits_getElem?_of_lt p h, Option.getD_some, winExcl_toNat_iff]

/-! ## RESULT words (R25) -/

/-- STATE is bit 24: above the 24 bits of the unit code, below every constant field. -/
@[simp] theorem resultSTATE_resultWord (f : FieldSet) : resultSTATE (resultWord f) = f.state := by
  obtain ⟨u, st⟩ := f
  have hBit : BitVec.getLsbD (w := 1 + (6 + (1 + 24))) (resultWord ⟨u, st⟩) 24 = st.bit := by
    simp only [resultWord, BitVec.getLsbD_append]
    simp
  calc resultSTATE (resultWord ⟨u, st⟩) = DevState.ofBit st.bit := congrArg DevState.ofBit hBit
    _ = st := by cases st <;> rfl

@[simp] theorem resultSTATE_noFieldSet : resultSTATE noFieldSet = .off := rfl

/-- The RESULT word of a successful DECODE as a number (R114). -/
theorem resultWord_off_eq_ofNat {u : Nat} (h : u < 2 ^ 24) :
    resultWord ⟨BitVec.ofNat 24 u, .off⟩ = BitVec.ofNat 32 (0x80000000 + u) := by
  refine BitVec.eq_of_toNat_eq ?_
  rw [resultWord_off_toNat, BitVec.toNat_ofNat, BitVec.toNat_ofNat]
  omega

/-! ## What DECODE does -/

/-- A valid frame (R114); `statusWord 2#4 .none true` evaluates to the literal. -/
theorem exec_decode_of_valid {s : State} (h : FrameValid s) :
    exec .decode s = .next { s with
      status := 0x00000203#32, result := BitVec.ofNat 32 (0x80000000 + value (bits s.pbuf)) } := by
  rw [← resultWord_off_eq_ofNat (value_bits_lt s.pbuf)]
  exact congrArg Host.Outcome.next (runDecode_of_valid h)

/-- An invalid frame (R114); here the word is `statusWord 2#4 .invalidFrame false`. -/
theorem exec_decode_of_not_valid {s : State} (h : ¬FrameValid s) :
    exec .decode s = .next { s with status := 0x00000211#32, result := 0x00000000#32 } :=
  congrArg Host.Outcome.next (runDecode_of_not_valid h)

/-- A field set DECODE writes has state off, and where it writes none STATE reads off too (R112). -/
@[simp] theorem runDecode_STATE (s : State) : resultSTATE (runDecode s).result = .off := by
  obtain ⟨-, e⟩ | ⟨-, e⟩ := runDecode_eq s <;> simp [e]

/-! ## The obligations -/

/-- Settles O34: `value_eq_sum` and `value_lt` at length 24. -/
theorem valueIsWeightedSum : Obligations.ValueIsWeightedSum := by
  unfold Obligations.ValueIsWeightedSum
  intro b hLen
  rw [← hLen]
  exact ⟨value_eq_sum b, value_lt b⟩

/-- Settles O35: the access decodes by evaluation, then one clause per verdict; `u` is the value of the sampled
bits. -/
theorem decodeWritesFieldSetOrError : Obligations.DecodeWritesFieldSetOrError := by
  unfold Obligations.DecodeWritesFieldSetOrError
  refine ⟨rfl, fun s => ⟨exec_decode_of_not_valid, fun hValid => ⟨value (bits s.pbuf), ?_⟩⟩⟩
  exact ⟨value_bits_lt s.pbuf, fun _ hk => value_bits_testBit_iff s.pbuf hk, exec_decode_of_valid hValid⟩

/-- Settles O33: every bit is the classification of its entry (`bits_getElem?_of_lt`). -/
theorem bitsSampleEvenEntries : Obligations.BitsSampleEvenEntries := by
  unfold Obligations.BitsSampleEvenEntries
  exact fun p => ⟨bits_length p, fun _ hk => ⟨_, bits_getElem?_of_lt p hk, winExcl_toNat_iff _⟩⟩

/-- Settles O38: DECODE completes, and both its arms leave STATE off (`runDecode_STATE`). -/
theorem decodeAlwaysReportsOff : Obligations.DecodeAlwaysReportsOff := by
  unfold Obligations.DecodeAlwaysReportsOff
  exact fun s => ⟨runDecode s, rfl, runDecode_STATE s⟩

end Sys2Proof.Machine
end

section
/-! PROOFS. ENCODE: the train position by position (43_encode.md R131, R132), the command word (R134), and what ENCODE
writes and does not use (R133, R134). -/

namespace Sys2Proof.Machine

open Sys2Proof

/-! ## The steps of R131 at one position -/

theorem lowPairs_getElem (t : Pbuf) {p : Nat} (h : p < 52) :
    (lowPairs t)[p] = if p < 50 then (if p % 2 = 0 then duration T_SHORT else duration T_LOW) else t[p] := by
  have hPair : (∃ k ∈ List.finRange 25, k.val = p / 2) ↔ p < 50 :=
    ⟨fun ⟨k, _, hk⟩ => by omega, fun hp => ⟨⟨p / 2, by omega⟩, List.mem_finRange _, rfl⟩⟩
  simp only [lowPairs, lowPairs_foldl_getElem _ _ p h, hPair]

theorem header_getElem (t : Pbuf) {p : Nat} (h : p < 52) :
    (header t)[p] = if p = 1 then duration T_SHORT else if p = 0 then duration T_HDR else t[p] := by
  simp only [header, Vector.getElem_set, @eq_comm _ p]

/-- The pair of bit `i` is `(2 + 2i, 3 + 2i)`, so position `p` belongs to bit `(p - 2) / 2`. -/
theorem highPairs_getElem (u : UnitCode) (t : Pbuf) {p : Nat} (h : p < 52) :
    (highPairs u t)[p] =
      if 2 ≤ p ∧ p < 50 ∧ u.toNat / 2 ^ ((p - 2) / 2) % 2 = 1 then
        (if p % 2 = 0 then duration T_SHORT else duration T_HIGH) else t[p] := by
  have hPair : (∃ i ∈ List.finRange 24, 2 + 2 * i.val = p - p % 2 ∧ unitcodeBit u i.val = true) ↔
      2 ≤ p ∧ p < 50 ∧ u.toNat / 2 ^ ((p - 2) / 2) % 2 = 1 := by
    simp only [unitcodeBit, beq_iff_eq]
    constructor
    · rintro ⟨i, -, hi, hBit⟩
      have hIndex : (p - 2) / 2 = i.val := by omega
      exact ⟨by omega, by omega, hIndex ▸ hBit⟩
    · rintro ⟨hLo, hHi, hBit⟩
      exact ⟨⟨(p - 2) / 2, by omega⟩, List.mem_finRange _, by dsimp only; omega, hBit⟩
  simp only [highPairs, highPairs_foldl_getElem u _ _ p h, hPair]

theorem footer_getElem (t : Pbuf) {p : Nat} (h : p < 52) :
    (footer t)[p] = if p = 51 then duration T_FTR else if p = 50 then duration T_SHORT else t[p] := by
  simp only [footer, Vector.getElem_set, @eq_comm _ p]

/-! ## The closed form (R132) -/

/-- Positions 2 to 49 of the table: only the odd ones carry a bit. -/
theorem trainEntry_of_payload (u : UnitCode) {p : Nat} (hLo : 2 ≤ p) (hHi : p < 50) :
    trainEntry u p = if p % 2 = 0 then 950 else if u.toNat / 2 ^ ((p - 2) / 2) % 2 = 1 then 2850 else 1425 := by
  rw [trainEntry, if_neg (by omega), if_neg (by omega), if_neg (by omega), if_neg (by omega)]
  rcases Nat.mod_two_eq_zero_or_one p with hEven | hOdd
  · rw [if_pos hEven, if_pos hEven]
  · rw [show (p - 3) / 2 = (p - 2) / 2 by omega]

/-- The last step that writes a position gives its entry (R131): the footer, the payload pairs, the header. -/
theorem encodeTrain_getElem (u : UnitCode) {p : Nat} (h : p < 52) :
    (encodeTrain u)[p] = duration (trainEntry u p) := by
  rw [encodeTrain, footer_getElem _ h, highPairs_getElem _ _ h, header_getElem _ h, lowPairs_getElem _ h]
  obtain rfl | rfl | rfl | rfl | ⟨hLo, hHi⟩ : p = 0 ∨ p = 1 ∨ p = 50 ∨ p = 51 ∨ 2 ≤ p ∧ p < 50 := by omega
  · rfl
  · rfl
  · rfl
  · rfl
  · rw [trainEntry_of_payload u hLo hHi, if_neg (by omega), if_neg (by omega), if_neg (by omega : p ≠ 1),
      if_neg (by omega : p ≠ 0), if_pos hHi]
    rcases Nat.mod_two_eq_zero_or_one p with hEven | hOdd
    · simp [hEven]
    · simp [hOdd, hLo, hHi, apply_ite duration]

/-- "Every element is one of five values" (R132). -/
theorem trainEntry_mem_values (u : UnitCode) (p : Nat) : trainEntry u p ∈ [950, 1425, 2850, 8075, 16150] := by
  unfold trainEntry
  split_ifs <;> decide

/-- "All fit in 14 bits" (R132). -/
theorem trainEntry_lt (u : UnitCode) (p : Nat) : trainEntry u p < 2 ^ 14 := by
  have hAll : ∀ v ∈ [950, 1425, 2850, 8075, 16150], v < 2 ^ 14 := by decide
  exact hAll _ (trainEntry_mem_values u p)

theorem encodeTrain_getElem_toNat (u : UnitCode) {p : Nat} (h : p < 52) :
    (encodeTrain u)[p].toNat = trainEntry u p := by
  rw [encodeTrain_getElem u h, duration, BitVec.toNat_ofNat]
  exact Nat.mod_eq_of_lt ((trainEntry_lt u p).trans (by decide))

/-! ## The command word (R62, R134) -/

theorem encodeHeader_toNat (up sp : Bool) (st : DevState) :
    (encodeHeader up sp st).toNat = 0x30 + up.toNat * 2 ^ 2 + sp.toNat * 2 + st.bit.toNat := by
  cases up <;> cases sp <;> cases st <;> rfl

theorem encodeCommand_encode_toNat (up sp : Bool) (st : DevState) (uc : UnitCode) :
    (encodeCommand (.encode up sp st uc)).toNat =
      0x30000000 + up.toNat * 2 ^ 26 + sp.toNat * 2 ^ 25 + st.bit.toNat * 2 ^ 24 + uc.toNat := by
  have hAppend : (encodeCommand (.encode up sp st uc)).toNat = (encodeHeader up sp st).toNat * 2 ^ 24 + uc.toNat := by
    rw [encodeCommand, BitVec.toNat_append, ← Nat.shiftLeft_add_eq_or_of_lt uc.isLt, Nat.shiftLeft_eq]
  rw [hAppend, encodeHeader_toNat]
  ring

/-- A write to CMD of a command's word is that command (R68). -/
theorem decodeAccess_encodeCommand (c : Command) :
    decodeAccess ⟨true, addrCMD, encodeCommand c⟩ = c.toInstr := by
  simp [decodeAccess, addrPLEN, addrCMD, decodeCommand_encodeCommand]

/-! ## What ENCODE does -/

/-- Both operands present (R134); `statusWord 3#4 .none false` evaluates to the literal. -/
theorem exec_encode_of_present {up sp : Bool} (h : up = true ∧ sp = true) (st : DevState) (uc : UnitCode) (s : State) :
    exec (.encode up sp st uc) s =
      .next { s with pbuf := encodeTrain uc, plen := 52#32, status := 0x00000301#32 } :=
  congrArg Host.Outcome.next (runEncode_of_present h st uc s)

/-- An operand missing (R134, R136); here the word is `statusWord 3#4 .missingField false`. -/
theorem exec_encode_of_missing {up sp : Bool} (h : ¬(up = true ∧ sp = true)) (st : DevState) (uc : UnitCode)
    (s : State) : exec (.encode up sp st uc) s = .next { s with status := 0x00000321#32 } :=
  congrArg Host.Outcome.next (runEncode_of_missing h st uc s)

/-! ## The obligations -/

/-- Settles O39: the closed form of every entry (`encodeTrain_getElem`), none of which wraps. -/
theorem encodeTrainClosedForm : Obligations.EncodeTrainClosedForm := by
  unfold Obligations.EncodeTrainClosedForm
  exact fun u _ h => encodeTrain_getElem_toNat u h

/-- Settles O40: the word is the one `encodeCommand` builds, which decodes back; then one clause per arm of R134. -/
theorem encodeWritesTrainOrError : Obligations.EncodeWritesTrainOrError := by
  unfold Obligations.EncodeWritesTrainOrError
  refine fun up sp st uc => ⟨?_, fun s => ⟨fun hMissing => ?_, fun hUp hSp => ?_⟩⟩
  · rw [← encodeCommand_encode_toNat, BitVec.ofNat_toNat, BitVec.setWidth_eq]
    exact decodeAccess_encodeCommand (.encode up sp st uc)
  · refine exec_encode_of_missing ?_ st uc s
    rintro ⟨rfl, rfl⟩
    simp at hMissing
  · exact ⟨_, exec_encode_of_present ⟨hUp, hSp⟩ st uc s, rfl, fun _ h => encodeTrain_getElem_toNat uc h⟩

/-- Settles O41: neither arm of R134 names the state operand or reads PULSE_DIV. -/
theorem encodeIgnoresStateAndPulseDiv : Obligations.EncodeIgnoresStateAndPulseDiv := by
  unfold Obligations.EncodeIgnoresStateAndPulseDiv
  refine ⟨fun up sp uc s => ?_, fun up sp st uc s t d ht => ?_⟩
  · by_cases h : up = true ∧ sp = true
    · rw [exec_encode_of_present h, exec_encode_of_present h]
    · rw [exec_encode_of_missing h, exec_encode_of_missing h]
  · by_cases h : up = true ∧ sp = true
    · rw [exec_encode_of_present h] at ht ⊢
      cases ht; rfl
    · rw [exec_encode_of_missing h] at ht ⊢
      cases ht; rfl

end Sys2Proof.Machine
end

section
/-! PROOFS. Host accesses: the map of addresses (20_memory.md R42), what the decoder makes of an access (30_encoding.md
R60), what each access does (44_host_access.md R150 to R159), and totality (R160). -/

namespace Sys2Proof.Machine

open Sys2Proof

/-! ## The address map (R42) -/

theorem addrPBUF_toNat (i : Fin 52) : (addrPBUF i).toNat = i.val := by
  rw [addrPBUF, BitVec.toNat_ofNat]
  exact Nat.mod_eq_of_lt (by omega)

/-- The reserved addresses are what the other rows of the map leave over. -/
theorem isReservedAddr_iff_not_mapped (a : Addr) :
    isReservedAddr a = true ↔
      ¬a.toNat < 52 ∧ a ≠ addrPLEN ∧ a ≠ addrCMD ∧ a ≠ addrSTATUS ∧ a ≠ addrRESULT := by
  revert a; decide

/-- Every address is of one row of the map. -/
theorem addr_cases (a : Addr) :
    (∃ i : Fin 52, a = addrPBUF i) ∨ a = addrPLEN ∨ a = addrCMD ∨ a = addrSTATUS ∨ a = addrRESULT ∨
      isReservedAddr a = true := by
  by_cases hPbuf : a.toNat < 52
  · exact .inl ⟨⟨a.toNat, hPbuf⟩, BitVec.eq_of_toNat_eq (addrPBUF_toNat ⟨a.toNat, hPbuf⟩).symm⟩
  · rw [isReservedAddr_iff_not_mapped]
    tauto

theorem hostRead_reserved {a : Addr} (h : isReservedAddr a = true) (s : State) : hostRead s a = 0#32 := by
  obtain ⟨hPbuf, hPlen, -, hStatus, hResult⟩ := (isReservedAddr_iff_not_mapped a).1 h
  rw [hostRead, dif_neg hPbuf, if_neg hPlen, if_neg hStatus, if_neg hResult]

/-! ## The decoder, one equation per row of the map (R60) -/

theorem decodeAccess_pbuf (we : Bool) (i : Fin 52) (d : Word) :
    decodeAccess ⟨we, addrPBUF i, d⟩ = if we then .wrPbuf i d else .rdPbuf i := by
  simp only [decodeAccess, addrPBUF_toNat, i.isLt, dif_pos]

theorem decodeAccess_plen (we : Bool) (d : Word) :
    decodeAccess ⟨we, addrPLEN, d⟩ = if we then .wrPlen d else .rdPlen := rfl

theorem decodeAccess_cmd_read (d : Word) : decodeAccess ⟨false, addrCMD, d⟩ = .rdCmd := rfl

theorem decodeAccess_status (we : Bool) (d : Word) :
    decodeAccess ⟨we, addrSTATUS, d⟩ = if we then .wrStatusResult .status d else .rdStatus := rfl

theorem decodeAccess_result (we : Bool) (d : Word) :
    decodeAccess ⟨we, addrRESULT, d⟩ = if we then .wrStatusResult .result d else .rdResult := rfl

theorem decodeAccess_reserved {a : Addr} (h : isReservedAddr a = true) (we : Bool) (d : Word) :
    decodeAccess ⟨we, a, d⟩ = .reservedAddress we a d := by
  obtain ⟨hPbuf, hPlen, hCmd, hStatus, hResult⟩ := (isReservedAddr_iff_not_mapped a).1 h
  rw [decodeAccess, dif_neg hPbuf, if_neg hPlen, if_neg hCmd, if_neg hStatus, if_neg hResult]

/-! ## What each access does (R150 to R159) -/

theorem readWord_eq (a : Addr) (s : State) : readWord a s = { s with reads := hostRead s a :: s.reads } := rfl

theorem exec_wrPbuf (i : Fin 52) (d : Word) (s : State) : exec (.wrPbuf i d) s = .next (storePbuf i d s) := rfl

theorem exec_rdPbuf (i : Fin 52) (s : State) : exec (.rdPbuf i) s = .next (readWord (addrPBUF i) s) := rfl

theorem exec_wrPlen (d : Word) (s : State) : exec (.wrPlen d) s = .next (storePlen d s) := rfl

theorem exec_rdPlen (s : State) : exec .rdPlen s = .next (readWord addrPLEN s) := rfl

theorem exec_rdCmd (s : State) : exec .rdCmd s = .next (readWord addrCMD s) := rfl

theorem exec_rdStatus (s : State) : exec .rdStatus s = .next (readWord addrSTATUS s) := rfl

theorem exec_rdResult (s : State) : exec .rdResult s = .next (readWord addrRESULT s) := rfl

theorem exec_wrStatusResult (r : ReadOnlyReg) (d : Word) (s : State) : exec (.wrStatusResult r d) s = .next s := rfl

theorem exec_reservedAddress_write (a : Addr) (d : Word) (s : State) :
    exec (.reservedAddress true a d) s = .next s := rfl

theorem exec_reservedAddress_read (a : Addr) (d : Word) (s : State) :
    exec (.reservedAddress false a d) s = .next { s with reads := 0#32 :: s.reads } := rfl

/-- A read, whatever its address, is the read of the address map: nothing but the word returned (R46). -/
theorem exec_decodeAccess_of_read (a : Addr) (d : Word) (s : State) :
    exec (decodeAccess ⟨false, a, d⟩) s = .next (readWord a s) := by
  obtain ⟨i, rfl⟩ | rfl | rfl | rfl | rfl | hReserved := addr_cases a
  · rw [decodeAccess_pbuf]; exact exec_rdPbuf i s
  · rw [decodeAccess_plen]; exact exec_rdPlen s
  · rw [decodeAccess_cmd_read]; exact exec_rdCmd s
  · rw [decodeAccess_status]; exact exec_rdStatus s
  · rw [decodeAccess_result]; exact exec_rdResult s
  · rw [decodeAccess_reserved hReserved, exec_reservedAddress_read, readWord_eq, hostRead_reserved hReserved]

/-- The addresses a write to which has an effect: those of R150, R152 and R154. -/
def IsWritable (a : Addr) : Prop := a.toNat < 52 ∨ a = addrPLEN ∨ a = addrCMD

/-- A write anywhere else is ignored (R158, R159). -/
theorem exec_decodeAccess_of_not_writable {a : Addr} (h : ¬IsWritable a) (d : Word) (s : State) :
    exec (decodeAccess ⟨true, a, d⟩) s = .next s := by
  obtain ⟨i, rfl⟩ | rfl | rfl | rfl | rfl | hReserved := addr_cases a
  · exact absurd (.inl (by rw [addrPBUF_toNat]; exact i.isLt)) h
  · exact absurd (.inr (.inl rfl)) h
  · exact absurd (.inr (.inr rfl)) h
  · rw [decodeAccess_status]; exact exec_wrStatusResult .status d s
  · rw [decodeAccess_result]; exact exec_wrStatusResult .result d s
  · rw [decodeAccess_reserved hReserved, exec_reservedAddress_write]

/-! ## Totality (R160) -/

/-- No arm of `exec` faults or is refused. -/
theorem exec_answers_next (i : Instr) (s : State) : ∃ t, exec i s = .next t := by
  cases i <;> exact ⟨_, rfl⟩

/-- The alternatives of the ten `BUS` rows partition the 256 patterns. -/
theorem busRowsMatching_length (p : BitVec 8) : (busRowsMatching p).length = 1 := by
  rw [busRowsMatching, List.length_map]
  revert p; decide

/-! ## The step, one equation per kind of event -/

theorem step_of_idle {s : State} (h : s.pending = []) : step s = .next s := by
  simp only [step, nextEvent, h]

theorem step_of_access {s : State} {a : Access} {rest : List Event} (h : s.pending = .access a :: rest) :
    step s = exec (decodeAccess a) { s with pending := rest } := by
  simp only [step, nextEvent, h]

theorem step_of_reset {s : State} {rest : List Event} (h : s.pending = .reset :: rest) :
    step s = .next (takeReset { s with pending := rest }) := by
  simp only [step, nextEvent, h]

/-! ## The obligations -/

/-- Settles O27: one row by the table alone; a read keeps the block (`exec_decodeAccess_of_read`), and so does a write
anywhere but where R150, R152 and R154 apply (`exec_decodeAccess_of_not_writable`). -/
theorem everyAccessCompletes : Obligations.EveryAccessCompletes := by
  unfold Obligations.EveryAccessCompletes
  rintro ⟨we, a, d⟩
  refine ⟨busRowsMatching_length _, fun s => ?_⟩
  cases we with
  | false => exact ⟨_, exec_decodeAccess_of_read a d s, fun hChanged => absurd (readWord_toBlock a s) hChanged⟩
  | true =>
    by_cases hWritable : IsWritable a
    · obtain ⟨t, ht⟩ := exec_answers_next (decodeAccess ⟨true, a, d⟩) s
      exact ⟨t, ht, fun _ => ⟨rfl, hWritable⟩⟩
    · exact ⟨s, exec_decodeAccess_of_not_writable hWritable d s, fun hChanged => absurd rfl hChanged⟩

/-- Settles O6: by the next event; an access is answered because every instruction is (`exec_answers_next`). -/
theorem everyStepAnswersNext : Obligations.EveryStepAnswersNext := by
  unfold Obligations.EveryStepAnswersNext
  intro s
  rcases hPending : s.pending with _ | ⟨_ | _, rest⟩
  case nil => exact ⟨_, step_of_idle hPending⟩
  case cons.access a => rw [SafeStep, step_of_access hPending]; exact exec_answers_next _ _
  case cons.reset => exact ⟨_, step_of_reset hPending⟩

/-- Settles O17: `storePbuf` is one `Vector.set`. -/
theorem writePbufStoresOneEntry : Obligations.WritePbufStoresOneEntry := by
  unfold Obligations.WritePbufStoresOneEntry
  refine fun i d => ⟨decodeAccess_pbuf true i d, fun s => ⟨_, exec_wrPbuf i d s, rfl, ?_, fun j hj hne => ?_⟩⟩
  · rw [storePbuf_pbuf, Vector.getElem_set_self]
  · rw [storePbuf_pbuf, Vector.getElem_set_ne _ _ hne.symm]

/-- Settles O18: a read of `PBUF[i]` is the address map's entry `i` (`hostRead_pbuf`). -/
theorem readPbufReturnsEntry : Obligations.ReadPbufReturnsEntry := by
  unfold Obligations.ReadPbufReturnsEntry
  exact fun i d => ⟨decodeAccess_pbuf false i d, fun s => by rw [exec_rdPbuf, readWord_eq, hostRead_pbuf]⟩

/-- Settles O19: `storePlen` is the whole effect. -/
theorem writePlenStoresWord : Obligations.WritePlenStoresWord := by
  unfold Obligations.WritePlenStoresWord
  exact fun d => ⟨decodeAccess_plen true d, fun s => exec_wrPlen d s⟩

/-- Settles O20: the address map answers PLEN. -/
theorem readPlenReturnsPlen : Obligations.ReadPlenReturnsPlen := by
  unfold Obligations.ReadPlenReturnsPlen
  exact fun d => ⟨decodeAccess_plen false d, fun s => by rw [exec_rdPlen, readWord_eq, hostRead_plen]⟩

/-- Settles O21: the address map answers 0 for CMD, and nothing but `readWord` runs. -/
theorem readCmdReturnsZero : Obligations.ReadCmdReturnsZero := by
  unfold Obligations.ReadCmdReturnsZero
  exact fun d => ⟨decodeAccess_cmd_read d, fun s => by rw [exec_rdCmd, readWord_eq, hostRead_cmd]⟩

/-- Settles O22: the address map answers STATUS, and `readWord` keeps it. -/
theorem readStatusReturnsStatus : Obligations.ReadStatusReturnsStatus := by
  unfold Obligations.ReadStatusReturnsStatus
  exact fun d => ⟨decodeAccess_status false d, fun s => by rw [exec_rdStatus, readWord_eq, hostRead_status]⟩

/-- Settles O23: the address map answers RESULT. -/
theorem readResultReturnsResult : Obligations.ReadResultReturnsResult := by
  unfold Obligations.ReadResultReturnsResult
  exact fun d => ⟨decodeAccess_result false d, fun s => by rw [exec_rdResult, readWord_eq, hostRead_result]⟩

/-- Settles O24: both addresses decode to the write that answers the same state. -/
theorem writeReadOnlyRegisterIgnored : Obligations.WriteReadOnlyRegisterIgnored := by
  unfold Obligations.WriteReadOnlyRegisterIgnored
  exact fun d => ⟨decodeAccess_status true d, decodeAccess_result true d, fun r s => exec_wrStatusResult r d s⟩

/-- Settles O25: the two ranges are the reserved addresses of the decoder. -/
theorem reservedAddressReadsZeroIgnoresWrites : Obligations.ReservedAddressReadsZeroIgnoresWrites := by
  unfold Obligations.ReservedAddressReadsZeroIgnoresWrites
  intro a d hRange
  have hReserved : isReservedAddr a = true := by
    simp only [isReservedAddr, Bool.or_eq_true, Bool.and_eq_true, decide_eq_true_iff]
    exact hRange.imp_right And.left
  exact ⟨fun we => decodeAccess_reserved hReserved we d,
    fun s => ⟨exec_reservedAddress_write a d s, exec_reservedAddress_read a d s⟩⟩

end Sys2Proof.Machine
end

section
/-! PROOFS. The codec laws (45_codec_laws.md): what VALIDATE rejects (R170, R171, R178), the frame of an encoded train
(R172), injectivity (R181), the bit-level inverse over both windows (R173), the round trip on the machine (R175), and
the purity of DECODE (R180). -/

namespace Sys2Proof.Machine

open Sys2Proof

/-! ## The pulses of an encoded train (R132) -/

/-- Bit `i` of the unit code alone decides the pulse at position `3 + 2i`. -/
theorem trainEntry_odd (u : UnitCode) {i : Nat} (h : i < 24) :
    trainEntry u (3 + 2 * i) = if u.toNat.testBit i then 2850 else 1425 := by
  have hOdd : (3 + 2 * i) % 2 ≠ 0 := by omega
  have hIndex : (3 + 2 * i - 2) / 2 = i := by omega
  simp only [trainEntry_of_payload u (p := 3 + 2 * i) (by omega) (by omega), if_neg hOdd, hIndex,
    Nat.testBit_eq_decide_div_mod_eq, decide_eq_true_iff]

theorem trainEntry_even (u : UnitCode) {k : Nat} (h : k < 24) : trainEntry u (2 * k + 2) = 950 := by
  rw [trainEntry_of_payload u (by omega) (by omega), if_pos (by omega)]

/-- A bit is read back from its pulse (R181). -/
theorem encodeTrain_getElem_eq_high_iff (u : UnitCode) {i : Nat} (h : i < 24) :
    (encodeTrain u)[3 + 2 * i] = 2850#32 ↔ u.toNat.testBit i = true := by
  rw [encodeTrain_getElem u (by omega), trainEntry_odd u h]
  cases u.toNat.testBit i <;> decide

theorem encodeTrain_injective {u u' : UnitCode} (h : encodeTrain u = encodeTrain u') : u = u' := by
  refine BitVec.eq_of_getLsbD_eq fun i hi => ?_
  rw [← BitVec.testBit_toNat, ← BitVec.testBit_toNat, Bool.eq_iff_iff, ← encodeTrain_getElem_eq_high_iff u hi,
    ← encodeTrain_getElem_eq_high_iff u' hi, h]

/-! ## The two windows (R174) -/

theorem HoldsTail51.toNat_getElem {w : Pbuf} {u : UnitCode} (h : HoldsTail51 w (encodeTrain u)) {j : Nat}
    (hj : j < 51) : w[j].toNat = trainEntry u (j + 1) := by
  rw [h j hj, encodeTrain_getElem_toNat]

theorem HoldsHead51.toNat_getElem {w : Pbuf} {u : UnitCode} (h : HoldsHead51 w (encodeTrain u)) {j : Nat}
    (hj : j < 51) : w[j].toNat = trainEntry u j := by
  rw [h j hj, encodeTrain_getElem_toNat]

/-! ## The bit-level inverse (R173) -/

/-- DECODE samples the odd positions of the train through `tail51`, the ones that carry the bits. -/
theorem HoldsTail51.bits_getElem? {w : Pbuf} {u : UnitCode} (h : HoldsTail51 w (encodeTrain u)) {k : Nat}
    (hk : k < 24) : (bits w)[k]? = some (u.toNat.testBit k) := by
  rw [bits_getElem?_of_lt w hk, h.toNat_getElem (by omega), show 2 * k + 2 + 1 = 3 + 2 * k by omega,
    trainEntry_odd u hk]
  cases u.toNat.testBit k <;> decide

/-- Through `head51` it samples the even positions, whose pulse is always the short one. -/
theorem HoldsHead51.bits_getElem? {w : Pbuf} {u : UnitCode} (h : HoldsHead51 w (encodeTrain u)) {k : Nat}
    (hk : k < 24) : (bits w)[k]? = some false := by
  rw [bits_getElem?_of_lt w hk, h.toNat_getElem (by omega), trainEntry_even u hk]
  decide

/-- A number below `2^24` whose bits are the sampled ones is their value (R111). -/
theorem value_bits_eq {w : Pbuf} {n : Nat} (hn : n < 2 ^ 24)
    (hBits : ∀ k < 24, (bits w)[k]? = some (n.testBit k)) : value (bits w) = n := by
  refine Nat.eq_of_testBit_eq fun k => ?_
  rw [value_testBit, List.getD_eq_getElem?_getD]
  by_cases hk : k < 24
  · rw [hBits k hk, Option.getD_some]
  · have hLen : (bits w).length ≤ k := by rw [bits_length]; omega
    have hPow : n < 2 ^ k := hn.trans_le (Nat.pow_le_pow_right (by decide) (by omega))
    rw [List.getElem?_eq_none hLen, Option.getD_none, Nat.testBit_lt_two_pow hPow]

theorem HoldsTail51.value_bits {w : Pbuf} {u : UnitCode} (h : HoldsTail51 w (encodeTrain u)) :
    value (bits w) = u.toNat :=
  value_bits_eq u.isLt fun _ hk => h.bits_getElem? hk

theorem HoldsHead51.value_bits {w : Pbuf} {u : UnitCode} (h : HoldsHead51 w (encodeTrain u)) :
    value (bits w) = 0 :=
  value_bits_eq (by decide) fun k hk => by rw [h.bits_getElem? hk, Nat.zero_testBit]

/-! ## The verdict over each window (R175) -/

/-- At the length of a captured frame the verdict is the window test on the last pulse (R100). -/
theorem frameValid_iff_of_plen {s : State} (hLen : s.plen = 51#32) :
    FrameValid s ↔ 450 * s.pulseDiv.toNat ≤ s.pbuf[50].toNat ∧ s.pbuf[50].toNat ≤ 500 * s.pulseDiv.toNat := by
  simp [FrameValid, hLen]

/-- The last pulse of `tail51` is the footer, 16150. -/
theorem HoldsTail51.frameValid_iff {s : State} {u : UnitCode} (h : HoldsTail51 s.pbuf (encodeTrain u))
    (hLen : s.plen = 51#32) :
    FrameValid s ↔ s.pulseDiv.toNat = 33 ∨ s.pulseDiv.toNat = 34 ∨ s.pulseDiv.toNat = 35 := by
  have hLast : s.pbuf[50].toNat = 16150 := h.toNat_getElem (by decide)
  rw [frameValid_iff_of_plen hLen, hLast]
  omega

/-- The last pulse of `head51` is position 50, the short pulse before the footer. -/
theorem HoldsHead51.frameValid_iff {s : State} {u : UnitCode} (h : HoldsHead51 s.pbuf (encodeTrain u))
    (hLen : s.plen = 51#32) : FrameValid s ↔ s.pulseDiv.toNat = 2 := by
  have hLast : s.pbuf[50].toNat = 950 := h.toNat_getElem (by decide)
  rw [frameValid_iff_of_plen hLen, hLast]
  omega

/-- VALIDATE and DECODE on one state, by a criterion `c` for its verdict: both succeed, with RESULT the value `n` of the
sampled bits, or both fail. -/
theorem exec_validate_decode_of_frameValid_iff {s : State} {c : Prop} {n : Nat} (hVerdict : FrameValid s ↔ c)
    (hValue : value (bits s.pbuf) = n) :
    (c → exec .validate s = .next { s with status := 0x00000103#32 } ∧
      exec .decode s = .next { s with status := 0x00000203#32, result := BitVec.ofNat 32 (0x80000000 + n) }) ∧
    (¬c → exec .validate s = .next { s with status := 0x00000111#32 } ∧
      exec .decode s = .next { s with status := 0x00000211#32, result := 0x00000000#32 }) := by
  rw [← hVerdict, ← hValue]
  exact ⟨fun hValid => ⟨exec_validate_of_valid hValid, exec_decode_of_valid hValid⟩,
    fun hInvalid => ⟨exec_validate_of_not_valid hInvalid, exec_decode_of_not_valid hInvalid⟩⟩

/-! ## What DECODE leaves as it was (R116) -/

@[simp] theorem runDecode_pbuf (s : State) : (runDecode s).pbuf = s.pbuf := by
  obtain ⟨-, e⟩ | ⟨-, e⟩ := runDecode_eq s <;> simp [e]

@[simp] theorem runDecode_plen (s : State) : (runDecode s).plen = s.plen := by
  obtain ⟨-, e⟩ | ⟨-, e⟩ := runDecode_eq s <;> simp [e]

/-! ## The obligations -/

/-- Settles O46: over `tail51` the sampled bits are those of the unit code, over `head51` they are all 0; the value
follows (`value_bits_eq`). -/
theorem bitLevelInverse : Obligations.BitLevelInverse := by
  unfold Obligations.BitLevelInverse
  refine fun u w => ⟨fun hTail => ⟨fun k hk => ?_, hTail.value_bits⟩,
    fun hHead => ⟨fun k hk => hHead.bits_getElem? hk, hHead.value_bits⟩⟩
  exact ⟨_, hTail.bits_getElem? hk, Nat.toNat_testBit u.toNat k⟩

/-- Settles O47: each window's last pulse gives the verdict's criterion, its sampled pulses give the value. -/
theorem roundTripOverBothWindows : Obligations.RoundTripOverBothWindows := by
  unfold Obligations.RoundTripOverBothWindows
  exact fun u s hLen =>
    ⟨fun hTail => exec_validate_decode_of_frameValid_iff (hTail.frameValid_iff hLen) hTail.value_bits,
      fun hHead => exec_validate_decode_of_frameValid_iff (hHead.frameValid_iff hLen) hHead.value_bits⟩

/-- Settles O37: DECODE writes neither PBUF nor PLEN, and is idempotent as a pure command. -/
theorem decodeIsIdempotent : Obligations.DecodeIsIdempotent := by
  unfold Obligations.DecodeIsIdempotent
  intro s t ht
  obtain rfl : runDecode s = t := Host.Outcome.next.inj ht
  exact ⟨runDecode_pbuf s, runDecode_plen s, congrArg Host.Outcome.next (pureCommand_runDecode.idempotent s)⟩

/-- Settles O44: every bit is read back from its pulse (`encodeTrain_getElem_eq_high_iff`). -/
theorem encodeIsInjective : Obligations.EncodeIsInjective := by
  unfold Obligations.EncodeIsInjective
  refine ⟨fun u i hi => ?_, fun _ _ => encodeTrain_injective⟩
  rw [encodeTrain_getElem_eq_high_iff u hi, Nat.testBit_eq_decide_div_mod_eq, decide_eq_true_iff]

/-- Settles O32: each clause is read off the verdict in plain numbers (`validateTrain_eq_true_iff`). -/
theorem validateRejects : Obligations.ValidateRejects := by
  unfold Obligations.ValidateRejects
  refine ⟨fun div p n hLen => ?_, fun div p n hLast => ?_, fun div p n hLen hLast => ?_, fun s hLen => ?_⟩
  · rw [Bool.eq_false_iff, Ne, validateTrain_eq_true_iff]
    exact fun hValid => hLen hValid.1
  · rw [Bool.eq_false_iff, Ne, validateTrain_eq_true_iff]
    omega
  · rw [validateTrain_eq_true_iff]
    exact ⟨hLen, by omega, by omega⟩
  · have hInvalid : ¬FrameValid s := by simp [FrameValid, hLen]
    exact exec_validate_of_not_valid hInvalid

/-- Settles O43: ENCODE's successful arm, then the first and the last entry of the closed form. -/
theorem encodeFramesTheTrain : Obligations.EncodeFramesTheTrain := by
  unfold Obligations.EncodeFramesTheTrain
  exact fun u st s => ⟨_, exec_encode_of_present ⟨rfl, rfl⟩ st u s, rfl, rfl, Vector.length_toList,
    encodeTrain_getElem u (by decide), encodeTrain_getElem u (by decide)⟩

end Sys2Proof.Machine
end

section
/-! PROOFS. Errors (60_exceptions.md): MISSING_FIELD raised exactly when an operand is absent (R192, R179) and the
effect of ILLEGAL_COMMAND (R194). -/

namespace Sys2Proof.Machine

open Sys2Proof

/-- Only ENCODE's failing arm writes `0x321`: its successful arm leaves `0x301` in STATUS (R134). -/
theorem exec_encode_missingField_iff (up sp : Bool) (st : DevState) (uc : UnitCode) (s : State) :
    exec (.encode up sp st uc) s = .next { s with status := 0x00000321#32 } ↔ ¬(up = true ∧ sp = true) := by
  refine ⟨fun hExec hPresent => ?_, fun hMissing => exec_encode_of_missing hMissing st uc s⟩
  rw [exec_encode_of_present hPresent] at hExec
  have hStatus : 0x00000301#32 = 0x00000321#32 := congrArg (·.status) (Host.Outcome.next.inj hExec)
  exact absurd hStatus (by decide)

/-! ## The obligations -/

/-- Settles O15: R65's illegal words are those with no command (`illegalByR65_iff`), whose effect is
`exec_wrCmd_of_not_legal`. -/
theorem illegalCommandWritesStatusOnly : Obligations.IllegalCommandWritesStatusOnly := by
  unfold Obligations.IllegalCommandWritesStatusOnly
  exact fun w s hIllegal => exec_wrCmd_of_not_legal ((illegalByR65_iff w).1 hIllegal) s

/-- Settles O42: the error's STATUS word determines its cause (`exec_encode_missingField_iff`); `0x32000000` is the word
with UP 0. -/
theorem missingFieldExactlyWhenAbsent : Obligations.MissingFieldExactlyWhenAbsent := by
  unfold Obligations.MissingFieldExactlyWhenAbsent
  refine ⟨fun up sp st uc s => ?_, fun uc s => ?_, rfl⟩
  · rw [exec_encode_missingField_iff, not_and_or, Bool.not_eq_true, Bool.not_eq_true]
  · exact (exec_encode_missingField_iff false true .off uc s).2 (by simp)

end Sys2Proof.Machine
end

section
/-! PROOFS. Encodings: the decoder against the encoder, for instructions and for accesses (30_encoding.md R60, R67,
R68), the layout of ENCODE's word (R62, R64, R134), the `BUS` rows (R60), and the assembler's boundary (R135, R233). -/

namespace Sys2Proof.Machine

open Sys2Proof

/-! ## Writes to CMD (R67, R68; log 7) -/

theorem decodeAccess_cmd_of_ok {w : Word} {c : Command} (h : decodeCommand w = .ok c) :
    decodeAccess ⟨true, addrCMD, w⟩ = c.toInstr := by
  simp [decodeAccess, addrPLEN, addrCMD, h]

theorem decodeAccess_cmd_of_not_legal {w : Word} (h : ¬IsLegalWord w) :
    decodeAccess ⟨true, addrCMD, w⟩ = .wrCmd w := by
  simp [decodeAccess, addrPLEN, addrCMD, decodeCommand_of_not_legal h]

theorem wellFormed_wrCmd_iff (w : Word) : (Instr.wrCmd w).wellFormed = true ↔ ¬IsLegalWord w := by
  rw [Instr.wellFormed, Bool.not_eq_true', Bool.eq_false_iff, Ne, isCommandWord_iff]

theorem encodeAccess_toInstr (c : Command) : encodeAccess c.toInstr = ⟨true, addrCMD, encodeCommand c⟩ := by
  cases c <;> rfl

theorem wellFormed_toInstr (c : Command) : c.toInstr.wellFormed = true := by
  cases c <;> rfl

/-! ## Instruction to access and back -/

theorem decodeAccess_encodeAccess {i : Instr} (h : i.wellFormed = true) : decodeAccess (encodeAccess i) = i := by
  cases i with
  | validate => exact decodeAccess_encodeCommand .validate
  | decode => exact decodeAccess_encodeCommand .decode
  | encode up sp st uc => exact decodeAccess_encodeCommand (.encode up sp st uc)
  | wrPbuf k d => exact decodeAccess_pbuf true k d
  | rdPbuf k => exact decodeAccess_pbuf false k 0#32
  | wrPlen d => exact decodeAccess_plen true d
  | rdPlen => exact decodeAccess_plen false 0#32
  | wrCmd w => exact decodeAccess_cmd_of_not_legal ((wellFormed_wrCmd_iff w).1 h)
  | rdCmd => exact decodeAccess_cmd_read 0#32
  | rdStatus => exact decodeAccess_status false 0#32
  | rdResult => exact decodeAccess_result false 0#32
  | wrStatusResult r d =>
    cases r with
    | status => exact decodeAccess_status true d
    | result => exact decodeAccess_result true d
  | reservedAddress we a d => exact decodeAccess_reserved h we d

/-! ## Word to command and back -/

/-- A header byte with ENCODE's OP and bit 27 zero is built from its own three flags. -/
theorem encodeHeader_of_flags (header : BitVec 8) (hOP : header.extractLsb' 4 4 = 3#4)
    (hZ27 : header.getLsbD 3 = false) :
    encodeHeader (header.getLsbD 2) (header.getLsbD 1) (.ofBit (header.getLsbD 0)) = header := by
  revert header; decide

theorem encodeCommand_of_encode {w : Word} (hOP : cmdOP w = 3#4) (hZ27 : cmdZ27 w = false) :
    encodeCommand (.encode (cmdUP w) (cmdSP w) (.ofBit (cmdST w)) (cmdUC w)) = w := by
  rw [← append_header_uc w, cmdOP_append] at hOP
  rw [← append_header_uc w, cmdZ27_append] at hZ27
  conv_lhs => rw [← append_header_uc w]
  rw [encodeCommand, cmdUP_append, cmdSP_append, cmdST_append, cmdUC_append, encodeHeader_of_flags _ hOP hZ27,
    append_header_uc]

/-- A legal word is the word of the command it stands for. -/
theorem exists_command_of_legal {w : Word} (h : IsLegalWord w) :
    ∃ c, decodeCommand w = .ok c ∧ encodeCommand c = w := by
  obtain rfl | rfl | ⟨hOP, hZ27⟩ := h
  · exact ⟨.validate, rfl, rfl⟩
  · exact ⟨.decode, rfl, rfl⟩
  · exact ⟨_, decodeCommand_of_encode hOP hZ27, encodeCommand_of_encode hOP hZ27⟩

/-! ## Access to instruction and back -/

theorem decodeAccess_wellFormed (a : Access) : (decodeAccess a).wellFormed = true := by
  obtain ⟨we, addr, d⟩ := a
  obtain ⟨i, rfl⟩ | rfl | rfl | rfl | rfl | hReserved := addr_cases addr
  · rw [decodeAccess_pbuf]; cases we <;> rfl
  · rw [decodeAccess_plen]; cases we <;> rfl
  · cases we with
    | false => rw [decodeAccess_cmd_read]; rfl
    | true =>
      by_cases hLegal : IsLegalWord d
      · obtain ⟨c, hc, -⟩ := exists_command_of_legal hLegal
        rw [decodeAccess_cmd_of_ok hc, wellFormed_toInstr]
      · rw [decodeAccess_cmd_of_not_legal hLegal, wellFormed_wrCmd_iff]; exact hLegal
  · rw [decodeAccess_status]; cases we <;> rfl
  · rw [decodeAccess_result]; cases we <;> rfl
  · rw [decodeAccess_reserved hReserved]; exact hReserved

theorem encodeAccess_decodeAccess_of_write (a : Addr) (d : Word) :
    encodeAccess (decodeAccess ⟨true, a, d⟩) = ⟨true, a, d⟩ := by
  obtain ⟨i, rfl⟩ | rfl | rfl | rfl | rfl | hReserved := addr_cases a
  · rw [decodeAccess_pbuf]; rfl
  · rw [decodeAccess_plen]; rfl
  · by_cases hLegal : IsLegalWord d
    · obtain ⟨c, hc, hd⟩ := exists_command_of_legal hLegal
      rw [decodeAccess_cmd_of_ok hc, encodeAccess_toInstr, hd]
    · rw [decodeAccess_cmd_of_not_legal hLegal]; rfl
  · rw [decodeAccess_status]; rfl
  · rw [decodeAccess_result]; rfl
  · rw [decodeAccess_reserved hReserved]; rfl

/-- The ignored `wdata` of a read comes back as 0, or as it was at a reserved address. -/
theorem encodeAccess_decodeAccess_of_read (a : Addr) (d : Word) :
    ∃ d', encodeAccess (decodeAccess ⟨false, a, d⟩) = ⟨false, a, d'⟩ := by
  obtain ⟨i, rfl⟩ | rfl | rfl | rfl | rfl | hReserved := addr_cases a
  · rw [decodeAccess_pbuf]; exact ⟨_, rfl⟩
  · rw [decodeAccess_plen]; exact ⟨_, rfl⟩
  · rw [decodeAccess_cmd_read]; exact ⟨_, rfl⟩
  · rw [decodeAccess_status]; exact ⟨_, rfl⟩
  · rw [decodeAccess_result]; exact ⟨_, rfl⟩
  · rw [decodeAccess_reserved hReserved]; exact ⟨_, rfl⟩

theorem encodeAccess_decodeAccess (a : Access) :
    (encodeAccess (decodeAccess a)).we = a.we ∧ (encodeAccess (decodeAccess a)).addr = a.addr ∧
      (a.we = true → (encodeAccess (decodeAccess a)).wdata = a.wdata) := by
  obtain ⟨we, addr, d⟩ := a
  cases we with
  | false =>
    obtain ⟨d', h⟩ := encodeAccess_decodeAccess_of_read addr d
    rw [h]; exact ⟨rfl, rfl, nofun⟩
  | true => rw [encodeAccess_decodeAccess_of_write]; exact ⟨rfl, rfl, fun _ => rfl⟩

theorem pattern_encodeAccess_decodeAccess (a : Access) : (encodeAccess (decodeAccess a)).pattern = a.pattern := by
  obtain ⟨hWe, hAddr, -⟩ := encodeAccess_decodeAccess a
  rw [Access.pattern, Access.pattern, hWe, hAddr]

/-! ## The `BUS` row of an instruction (R60) -/

/-- `Laws.RowMatch` over all constructors. -/
theorem rowMatch_statement (i : Instr) : Laws.RowMatch.Statement i := by
  cases i with
  | validate => exact Laws.RowMatch.validate
  | decode => exact Laws.RowMatch.decode
  | encode up sp st uc => exact Laws.RowMatch.encode up sp st uc
  | wrPbuf k d => exact Laws.RowMatch.wrPbuf k d
  | rdPbuf k => exact Laws.RowMatch.rdPbuf k
  | wrPlen d => exact Laws.RowMatch.wrPlen d
  | rdPlen => exact Laws.RowMatch.rdPlen
  | wrCmd w => exact Laws.RowMatch.wrCmd w
  | rdCmd => exact Laws.RowMatch.rdCmd
  | rdStatus => exact Laws.RowMatch.rdStatus
  | rdResult => exact Laws.RowMatch.rdResult
  | wrStatusResult r d => exact Laws.RowMatch.wrStatusResult r d
  | reservedAddress we a d => exact Laws.RowMatch.reservedAddress we a d

theorem busRowsMatching_encodeAccess {i : Instr} (h : i.wellFormed = true) :
    busRowsMatching (encodeAccess i).pattern = [i.busMnemonic] :=
  (rowMatch_statement i h).1

/-! ## The assembler (R68, R135) -/

theorem asmENCODE_of_large {u : Nat} (h : 2 ^ 24 ≤ u) (st : Option DevState) : asmENCODE (some u) st = none :=
  if_neg (Nat.not_lt.2 h)

theorem asmENCODE_of_small {u : Nat} (h : u < 2 ^ 24) (st : Option DevState) :
    asmENCODE (some u) st = some (encodeAccess (.encode true st.isSome (st.getD .off) (BitVec.ofNat 24 u))) :=
  if_pos h

theorem asmENCODE_none (st : Option DevState) :
    asmENCODE none st = some (encodeAccess (.encode false st.isSome (st.getD .off) 0#24)) := rfl

/-! ## The obligations -/

/-- Settles O9: by the instruction, through the decoder's equation for its row of the address map
(`decodeAccess_encodeAccess`). -/
theorem decodeOfEncodeIsIdentity : Obligations.DecodeOfEncodeIsIdentity := by
  unfold Obligations.DecodeOfEncodeIsIdentity
  exact fun _ => decodeAccess_encodeAccess

/-- Settles O10: by the row of the address map; at CMD a legal word is its command's own (`exists_command_of_legal`). -/
theorem encodeOfDecodeIsIdentity : Obligations.EncodeOfDecodeIsIdentity := by
  unfold Obligations.EncodeOfDecodeIsIdentity
  exact fun a => ⟨decodeAccess_wellFormed a, encodeAccess_decodeAccess a⟩

/-- Settles O13: the word's number is the sum of its fields (`encodeCommand_encode_toNat`); a word that matches ENCODE's
mask takes the third arm of R67. -/
theorem encodeWordLayout : Obligations.EncodeWordLayout := by
  unfold Obligations.EncodeWordLayout
  refine ⟨fun up sp st uc => ⟨rfl, encodeCommand_encode_toNat up sp st uc⟩, fun w hMatch => ?_⟩
  obtain ⟨hOP, hZ27⟩ := (and_encodeMask_iff w).1 hMatch
  rw [decodeCommand_of_encode hOP hZ27, cmdUC_eq_ofNat]
  rfl

/-- Settles O11: an access has the pattern of the instruction it decodes to, which is well-formed and so matches its own
row. -/
theorem busPatternsPartitionAccesses : Obligations.BusPatternsPartitionAccesses := by
  unfold Obligations.BusPatternsPartitionAccesses
  refine ⟨busRowsMatching_length, fun a => ?_⟩
  rw [← pattern_encodeAccess_decodeAccess a, busRowsMatching_encodeAccess (decodeAccess_wellFormed a)]

/-- Settles O12: eleven fixed accesses, by evaluation. -/
theorem specWordsDecode : Obligations.SpecWordsDecode := by
  unfold Obligations.SpecWordsDecode
  decide

/-- Settles O53: what is assembled is the access of a well-formed ENCODE, which decodes back. -/
theorem assemblerRefusesLargeUnitCodes : Obligations.AssemblerRefusesLargeUnitCodes := by
  unfold Obligations.AssemblerRefusesLargeUnitCodes
  exact ⟨fun _ st h => asmENCODE_of_large h st,
    fun _ st h => ⟨_, asmENCODE_of_small h st, decodeAccess_encodeAccess rfl⟩,
    fun st => ⟨_, asmENCODE_none st, decodeAccess_encodeAccess rfl⟩⟩

end Sys2Proof.Machine
end

section
/-! PROOFS. Rules of the whole machine: everything an instruction can do, who writes which register (10_state.md R24,
R25, R34, 20_memory.md R53), and the side effects of host accesses (20_memory.md R46, R48). -/

namespace Sys2Proof.Machine

open Sys2Proof

/-! ## What a command word leaves unchanged -/

theorem runValidate_eq_status (s : State) : ∃ v, runValidate s = { s with status := v } := by
  obtain ⟨-, e⟩ | ⟨-, e⟩ := runValidate_eq s <;> exact ⟨_, e⟩

theorem runDecode_eq_status_result (s : State) : ∃ v r, runDecode s = { s with status := v, result := r } := by
  obtain ⟨-, e⟩ | ⟨-, e⟩ := runDecode_eq s <;> exact ⟨_, _, e⟩

/-- A command writes the block alone: PULSE_DIV and the host's own data stay (R21, R29). -/
theorem runCommandWord_eq_block (w : Word) (s : State) :
    ∃ b : Block, runCommandWord w s = { s with toBlock := b } := by
  obtain ⟨-, e⟩ | ⟨-, e | ⟨up, sp, st, uc, e⟩ | e⟩ := runCommandWord_arm w <;> rw [e]
  · obtain ⟨v, r, h⟩ := runDecode_eq_status_result s
    exact ⟨_, h⟩
  · obtain ⟨v, h⟩ := runValidate_eq_status s
    exact ⟨_, h⟩
  · obtain ⟨-, h⟩ | ⟨-, h⟩ := runEncode_eq up sp st uc s <;> exact ⟨_, h⟩
  · exact ⟨_, rfl⟩

/-- ENCODE's match with UP and SP set as well. -/
theorem and_encodePresentMask_iff (w : Word) :
    w &&& 0xFE000000#32 = 0x36000000#32 ↔
      (cmdOP w = 3#4 ∧ cmdZ27 w = false) ∧ cmdUP w = true ∧ cmdSP w = true := by
  have hMask : (0xFE000000#32 : Word) = 0xFE#8 ++ 0#24 := by decide
  rw [← append_header_uc w, hMask, BitVec.and_append, BitVec.and_zero, cmdOP_append, cmdZ27_append, cmdUP_append,
    cmdSP_append]
  generalize w.extractLsb' 24 8 = header
  revert header; decide

/-- The train a command leaves: as it was, or the one ENCODE with both operands loads (R53). -/
theorem runCommandWord_train (w : Word) (s : State) :
    ((runCommandWord w s).pbuf = s.pbuf ∧ (runCommandWord w s).plen = s.plen) ∨
    (w &&& 0xFE000000#32 = 0x36000000#32 ∧
      (runCommandWord w s).pbuf = encodeTrain (cmdUC w) ∧ (runCommandWord w s).plen = 52#32) := by
  by_cases hLegal : IsLegalWord w
  · obtain rfl | rfl | ⟨hOP, hZ27⟩ := hLegal
    · obtain ⟨v, h⟩ := runValidate_eq_status s
      exact .inl ⟨congrArg (·.pbuf) h, congrArg (·.plen) h⟩
    · exact .inl ⟨runDecode_pbuf s, runDecode_plen s⟩
    · rw [runCommandWord_of_encode hOP hZ27]
      obtain ⟨hPresent, h⟩ | ⟨-, h⟩ := runEncode_eq (cmdUP w) (cmdSP w) (.ofBit (cmdST w)) (cmdUC w) s <;> rw [h]
      · exact .inr ⟨(and_encodePresentMask_iff w).2 ⟨⟨hOP, hZ27⟩, hPresent⟩, rfl, rfl⟩
      · exact .inl ⟨rfl, rfl⟩
  · rw [runCommandWord_of_not_legal hLegal]; exact .inl ⟨rfl, rfl⟩

/-! ## STATUS.DONE (R24) -/

theorem runCommandWord_DONE (w : Word) (s : State) : statusDONE (runCommandWord w s).status = true := by
  obtain ⟨-, e⟩ | ⟨-, e | ⟨up, sp, st, uc, e⟩ | e⟩ := runCommandWord_arm w <;> rw [e]
  · obtain ⟨-, h⟩ | ⟨-, h⟩ := runDecode_eq s <;> simp [h]
  · obtain ⟨-, h⟩ | ⟨-, h⟩ := runValidate_eq s <;> simp [h]
  · obtain ⟨-, h⟩ | ⟨-, h⟩ := runEncode_eq up sp st uc s <;> simp [h]
  · simp

/-! ## Everything an instruction can do -/

/-- A command runs its word; every other instruction is a write of PBUF or PLEN, an ignored write or a read. -/
theorem exec_cases {i : Instr} {s t : State} (h : exec i s = .next t) :
    (∃ w, commandWord i = some w ∧ t = runCommandWord w s) ∨
    (commandWord i = none ∧
      ((∃ k d, i = .wrPbuf k d ∧ t = storePbuf k d s) ∨ (∃ d, i = .wrPlen d ∧ t = storePlen d s) ∨
        t = s ∨ ∃ v, t = returnRead v s)) := by
  rcases hWord : commandWord i with _ | w
  case some =>
    rw [exec_of_commandWord hWord] at h
    cases h; exact .inl ⟨w, rfl, rfl⟩
  case none =>
    refine .inr ⟨rfl, ?_⟩
    cases i with
    | validate | decode | encode | wrCmd => cases hWord
    | wrPbuf k d => cases h; exact .inl ⟨k, d, rfl, rfl⟩
    | wrPlen d => cases h; exact .inr (.inl ⟨d, rfl, rfl⟩)
    | rdPbuf | rdPlen | rdCmd | rdStatus | rdResult => cases h; exact .inr (.inr (.inr ⟨_, rfl⟩))
    | wrStatusResult => cases h; exact .inr (.inr (.inl rfl))
    | reservedAddress we a d =>
      cases we with
      | false => cases h; exact .inr (.inr (.inr ⟨_, rfl⟩))
      | true => cases h; exact .inr (.inr (.inl rfl))

/-- Only a command writes the answer registers. -/
theorem exec_keeps_answers_of_not_command {i : Instr} {s t : State} (hWord : commandWord i = none)
    (h : exec i s = .next t) : t.status = s.status ∧ t.result = s.result := by
  obtain ⟨w, hw, -⟩ | ⟨-, ⟨k, d, -, rfl⟩ | ⟨d, -, rfl⟩ | rfl | ⟨v, rfl⟩⟩ := exec_cases h
  · rw [hWord] at hw; cases hw
  · exact ⟨rfl, rfl⟩
  · exact ⟨rfl, rfl⟩
  · exact ⟨rfl, rfl⟩
  · exact ⟨rfl, rfl⟩

theorem exec_keeps_pulseDiv_and_reads {i : Instr} {s t : State} (h : exec i s = .next t) :
    t.pulseDiv = s.pulseDiv ∧ (t.reads = s.reads ∨ ∃ v, t.reads = v :: s.reads) := by
  obtain ⟨w, -, rfl⟩ | ⟨-, ⟨k, d, -, rfl⟩ | ⟨d, -, rfl⟩ | rfl | ⟨v, rfl⟩⟩ := exec_cases h
  · obtain ⟨b, e⟩ := runCommandWord_eq_block w s
    rw [e]; exact ⟨rfl, .inl rfl⟩
  · exact ⟨rfl, .inl rfl⟩
  · exact ⟨rfl, .inl rfl⟩
  · exact ⟨rfl, .inl rfl⟩
  · exact ⟨rfl, .inr ⟨v, rfl⟩⟩

/-! ## Writes to the register space (R46) -/

/-- `b` and `a` are one entry of PBUF only where they are one address. -/
theorem toNat_eq_pbuf_iff (b : Addr) (i : Fin 52) : b.toNat = i.val ↔ b = addrPBUF i := by
  rw [← addrPBUF_toNat i, BitVec.toNat_inj]

/-! ## The obligations -/

/-- Settles O8: an access by `exec_keeps_pulseDiv_and_reads`; the idle step and reset keep both. -/
theorem stepKeepsPulseDivAndReads : Obligations.StepKeepsPulseDivAndReads := by
  unfold Obligations.StepKeepsPulseDivAndReads
  intro s t ht
  obtain ⟨-, rfl⟩ | ⟨a, rest, -, hExec⟩ | ⟨rest, -, rfl⟩ := step_cases ht
  · exact ⟨rfl, .inl rfl⟩
  · exact exec_keeps_pulseDiv_and_reads (s := { s with pending := rest }) hExec
  · exact ⟨rfl, .inl rfl⟩

/-- Settles O49: a command's STATUS has DONE 1 and the word's opcode as LASTOP, whichever arm of R67 it takes. -/
theorem statusWrittenByCommandsOnly : Obligations.StatusWrittenByCommandsOnly := by
  unfold Obligations.StatusWrittenByCommandsOnly
  intro i s
  obtain ⟨t, ht⟩ := exec_answers_next i s
  refine ⟨t, ht, ?_⟩
  rcases hWord : commandWord i with _ | w
  case none => exact (exec_keeps_answers_of_not_command hWord ht).1
  case some =>
    rw [exec_of_commandWord hWord] at ht
    cases ht
    exact ⟨runCommandWord_DONE w s, by rw [runCommandWord_LASTOP, cmdOP_toNat]⟩

/-- Settles O50: an instruction with another word, or with none, keeps RESULT. -/
theorem resultWrittenByDecodeOnly : Obligations.ResultWrittenByDecodeOnly := by
  unfold Obligations.ResultWrittenByDecodeOnly
  intro i s t ht hNotDecode
  rcases hWord : commandWord i with _ | w
  case none => exact (exec_keeps_answers_of_not_command hWord ht).2
  case some =>
    rw [exec_of_commandWord hWord] at ht
    cases ht
    have hne : w ≠ 0x20000000#32 := fun hw => hNotDecode (by rw [hWord, hw])
    exact runCommandWord_result_of_ne hne s

/-- Settles O51: of the commands only ENCODE with both operands loads a train (`runCommandWord_train`); of the other
instructions only the two writes touch it (`exec_cases`). -/
theorem trainChangesOnlyByWritesAndEncode : Obligations.TrainChangesOnlyByWritesAndEncode := by
  unfold Obligations.TrainChangesOnlyByWritesAndEncode
  intro i s t ht
  obtain ⟨w, hWord, rfl⟩ | ⟨-, ⟨k, d, hi, rfl⟩ | ⟨d, hi, rfl⟩ | rfl | ⟨v, rfl⟩⟩ := exec_cases ht
  · obtain ⟨hPbuf, hPlen⟩ | ⟨hMatch, hPbuf, hPlen⟩ := runCommandWord_train w s
    · exact ⟨fun hne => absurd hPbuf hne, fun hne => absurd hPlen hne⟩
    · exact ⟨fun _ => .inr ⟨w, hWord, hMatch, hPbuf⟩, fun _ => .inr ⟨w, hWord, hMatch, hPlen⟩⟩
  · exact ⟨fun _ => .inl ⟨k, d, hi⟩, fun hne => absurd rfl hne⟩
  · exact ⟨fun hne => absurd rfl hne, fun _ => .inl ⟨d, hi⟩⟩
  · exact ⟨fun hne => absurd rfl hne, fun hne => absurd rfl hne⟩
  · exact ⟨fun hne => absurd rfl hne, fun hne => absurd rfl hne⟩

/-- Settles O26: a read by the address map; a write to PBUF or PLEN by what a read sees of the store, any other write
but to CMD is ignored. -/
theorem accessesChangeOnlyTheirWord : Obligations.AccessesChangeOnlyTheirWord := by
  unfold Obligations.AccessesChangeOnlyTheirWord
  refine ⟨?read, ?write⟩
  case read =>
    rintro ⟨we, a, d⟩ s rfl
    exact exec_decodeAccess_of_read a d s
  case write =>
    rintro ⟨we, a, d⟩ s rfl hCmd
    by_cases hPbuf : a.toNat < 52
    · obtain ⟨i, rfl⟩ : ∃ i : Fin 52, a = addrPBUF i := ⟨⟨a.toNat, hPbuf⟩, (toNat_eq_pbuf_iff a ⟨_, hPbuf⟩).1 rfl⟩
      refine ⟨storePbuf i d s, by rw [decodeAccess_pbuf]; rfl, rfl, fun b hb => ?_, ?_⟩
      · rw [hostRead_storePbuf, if_neg (mt (toNat_eq_pbuf_iff b i).1 hb)]
      · rw [hostRead_storePbuf, if_pos (addrPBUF_toNat i), if_pos (.inl hPbuf)]
    by_cases hPlen : a = addrPLEN
    · subst hPlen
      refine ⟨storePlen d s, by rw [decodeAccess_plen]; rfl, rfl, fun b hb => ?_, ?_⟩
      · rw [hostRead_storePlen, if_neg hb]
      · rw [hostRead_storePlen, if_pos rfl, if_pos (.inr rfl)]
    · have hWritable : ¬IsWritable a := by rintro (h | h | h) <;> contradiction
      exact ⟨s, exec_decodeAccess_of_not_writable hWritable d s, rfl, fun _ _ => rfl,
        (if_neg (not_or.2 ⟨hPbuf, hPlen⟩)).symm⟩

end Sys2Proof.Machine
end

section
/-! PROOFS. The answer registers and the next event: STATUS and RESULT belong together after every step (10_state.md
R24, R25, 20_memory.md R47), from reset on (R32, R220), and what one event does (R203, R220). -/

namespace Sys2Proof.Machine

open Sys2Proof

/-! ## RESULT words (R25) -/

/-- FVALID is bit 31, which the number of the word has. -/
theorem resultFVALID_resultWord_off (u : UnitCode) : resultFVALID (resultWord ⟨u, .off⟩) = true := by
  rw [resultFVALID, ← BitVec.testBit_toNat, resultWord_off_toNat, Nat.testBit_eq_decide_div_mod_eq,
    decide_eq_true_iff]
  omega

/-- Bits 30:24 lie between the unit code and FVALID. -/
theorem extractLsb'_resultWord_off (u : UnitCode) : (resultWord ⟨u, .off⟩).extractLsb' 24 7 = 0#7 := by
  refine BitVec.eq_of_toNat_eq ?_
  rw [BitVec.extractLsb'_toNat, resultWord_off_toNat, Nat.shiftRight_eq_div_pow, BitVec.toNat_ofNat]
  omega

theorem resultLegal_resultWord_off (u : UnitCode) : resultLegal (resultWord ⟨u, .off⟩) = true := by
  simp [resultLegal, resultFVALID_resultWord_off, extractLsb'_resultWord_off]

/-! ## The three ways the registers can agree -/

section WaysToAgree

variable {t : State}

/-- Before the first command and after a failed DECODE there is no field set. -/
theorem RegistersAgree.of_noFieldSet (hStatus : t.status = 0x000#32 ∨ t.status = 0x211#32)
    (hResult : t.result = 0#32) : RegistersAgree t where
  statusLegal := by obtain h | h := hStatus <;> rw [h] <;> decide
  resultLegal := by rw [hResult]; rfl
  noCommandYet _ := hResult
  decodeSuccess h := by obtain h' | h' := hStatus <;> exact absurd (h.symm.trans h') (by decide)
  decodeFailure _ := hResult

/-- After a successful DECODE there is one, with state off. -/
theorem RegistersAgree.of_fieldSet {u : UnitCode} (hStatus : t.status = 0x203#32)
    (hResult : t.result = resultWord ⟨u, .off⟩) : RegistersAgree t where
  statusLegal := by rw [hStatus]; decide
  resultLegal := by rw [hResult, resultLegal_resultWord_off]
  noCommandYet h := absurd (hStatus.symm.trans h) (by decide)
  decodeSuccess _ := by rw [hResult, resultFVALID_resultWord_off]
  decodeFailure h := absurd (hStatus.symm.trans h) (by decide)

/-- A legal STATUS value that says nothing about RESULT: one of a command other than DECODE, or of an illegal word. -/
def SilentOnResult (status : Word) : Prop :=
  status ∈ legalStatuses ∧ status ≠ 0x000#32 ∧ status ≠ 0x203#32 ∧ status ≠ 0x211#32

theorem RegistersAgree.of_silent (hStatus : SilentOnResult t.status)
    (hResult : Machine.resultLegal t.result = true) : RegistersAgree t := by
  obtain ⟨hLegal, hReset, hSuccess, hFailure⟩ := hStatus
  exact ⟨hLegal, hResult, fun h => absurd h hReset, fun h => absurd h hSuccess, fun h => absurd h hFailure⟩

/-- The invariant reads no other field. -/
theorem RegistersAgree.congr {s : State} (h : RegistersAgree s) (hStatus : t.status = s.status)
    (hResult : t.result = s.result) : RegistersAgree t where
  statusLegal := by rw [hStatus]; exact h.statusLegal
  resultLegal := by rw [hResult]; exact h.resultLegal
  noCommandYet := by rw [hStatus, hResult]; exact h.noCommandYet
  decodeSuccess := by rw [hStatus, hResult]; exact h.decodeSuccess
  decodeFailure := by rw [hStatus, hResult]; exact h.decodeFailure

end WaysToAgree

/-! ## Which of them each command leaves -/

theorem silentOnResult_illegal (op : BitVec 4) : SilentOnResult (statusWord op .illegalCommand false) := by
  unfold SilentOnResult
  revert op; decide

theorem runValidate_silentOnResult (s : State) : SilentOnResult (runValidate s).status := by
  unfold SilentOnResult
  obtain ⟨-, e⟩ | ⟨-, e⟩ := runValidate_eq s <;> rw [e]
  · rw [complete_status]; decide
  · rw [raiseError_status]; decide

theorem runEncode_silentOnResult (up sp : Bool) (st : DevState) (uc : UnitCode) (s : State) :
    SilentOnResult (runEncode up sp st uc s).status := by
  unfold SilentOnResult
  obtain ⟨-, e⟩ | ⟨-, e⟩ := runEncode_eq up sp st uc s <;> rw [e]
  · rw [complete_status]; decide
  · rw [raiseError_status]; decide

/-- DECODE rewrites both registers, so they agree whatever they held before. -/
theorem runDecode_registersAgree (s : State) : RegistersAgree (runDecode s) := by
  obtain ⟨-, e⟩ | ⟨-, e⟩ := runDecode_eq s <;> rw [e]
  · exact .of_fieldSet rfl rfl
  · exact .of_noFieldSet (.inr rfl) rfl

theorem RegistersAgree.runCommandWord {s : State} (h : RegistersAgree s) (w : Word) :
    RegistersAgree (runCommandWord w s) := by
  obtain ⟨-, e⟩ | ⟨-, e | ⟨up, sp, st, uc, e⟩ | e⟩ := runCommandWord_arm w <;> rw [e]
  · exact runDecode_registersAgree s
  · exact .of_silent (runValidate_silentOnResult s) (by rw [runValidate_result]; exact h.resultLegal)
  · exact .of_silent (runEncode_silentOnResult up sp st uc s) (by rw [runEncode_result]; exact h.resultLegal)
  · exact .of_silent (silentOnResult_illegal (cmdOP w)) h.resultLegal

theorem RegistersAgree.exec {i : Instr} {s t : State} (h : RegistersAgree s) (ht : exec i s = .next t) :
    RegistersAgree t := by
  rcases hWord : commandWord i with _ | w
  case none =>
    obtain ⟨hStatus, hResult⟩ := exec_keeps_answers_of_not_command hWord ht
    exact h.congr hStatus hResult
  case some =>
    rw [exec_of_commandWord hWord] at ht
    cases ht
    exact h.runCommandWord w

/-! ## The obligations -/

/-- Settles O7: reset clears both registers; an access runs a command, which leaves them in one of the three ways, or an
instruction that writes neither. -/
theorem stepKeepsRegistersAgree : Obligations.StepKeepsRegistersAgree := by
  unfold Obligations.StepKeepsRegistersAgree
  intro s t h ht
  obtain ⟨-, rfl⟩ | ⟨a, rest, -, hExec⟩ | ⟨rest, -, rfl⟩ := step_cases ht
  · exact h
  · have hTaken : RegistersAgree { s with pending := rest } := h.congr rfl rfl
    exact hTaken.exec hExec
  · exact .of_noFieldSet (.inl rfl) rfl

/-- Settles O1: the three registers by evaluation, with no field set before the first command. -/
theorem resetStateHoldsSpecValues : Obligations.ResetStateHoldsSpecValues := by
  unfold Obligations.ResetStateHoldsSpecValues
  exact ⟨rfl, rfl, rfl, .of_noFieldSet (.inl rfl) rfl⟩

/-- Settles O3: the step is `takeReset` (`step_of_reset`), which writes just the block and its counter. -/
theorem resetEventGivesResetValues : Obligations.ResetEventGivesResetValues := by
  unfold Obligations.ResetEventGivesResetValues
  exact fun s rest hPending => ⟨_, step_of_reset hPending, rfl, rfl, rfl, rfl, rfl, rfl⟩

/-- Settles O4: the step's equation for an access, then the decoder gives the encoded instruction back. -/
theorem stepRunsDecodedAccess : Obligations.StepRunsDecodedAccess := by
  unfold Obligations.StepRunsDecodedAccess
  refine ⟨fun s a rest hPending => step_of_access hPending, fun s i rest hWellFormed hPending => ?_⟩
  rw [step_of_access hPending, decodeAccess_encodeAccess hWellFormed]

/-- Settles O5: the step's equation with nothing pending. -/
theorem idleStepHoldsState : Obligations.IdleStepHoldsState := by
  unfold Obligations.IdleStepHoldsState
  exact fun _ => step_of_idle

end Sys2Proof.Machine
end

section
/-! PROOFS. Verdicts and causes: lengths that give no frame (10_state.md R32, 70_reset_and_hazards.md R228), the entries
DECODE samples (20_memory.md R53), and the cause of each error code (60_exceptions.md R190 to R195). -/

namespace Sys2Proof.Machine

open Sys2Proof

/-! ## The verdict by its length -/

theorem not_frameValid_of_plen_ne {s : State} (h : s.plen.toNat ≠ 51) : ¬FrameValid s := fun hValid => h hValid.1

/-- Both commands that take a verdict fail. -/
theorem exec_validate_decode_of_not_valid {s : State} (h : ¬FrameValid s) :
    exec .validate s = .next { s with status := 0x00000111#32 } ∧
      exec .decode s = .next { s with status := 0x00000211#32, result := 0x00000000#32 } :=
  ⟨exec_validate_of_not_valid h, exec_decode_of_not_valid h⟩

/-! ## What DECODE samples (R53, R110) -/

theorem bits_congr {p q : Pbuf} (h : ∀ (k : Nat) (_ : k < 24), p[2 * k + 2] = q[2 * k + 2]) : bits p = bits q := by
  refine List.map_congr_left fun k _ => ?_
  rw [pulse, pulse, h k.val k.isLt]

/-- The states agree on what DECODE reads: PLEN, PULSE_DIV, entry 50 and the 24 sampled entries. -/
structure DecodeInputsAgree (s s' : State) : Prop where
  plen : s.plen = s'.plen
  pulseDiv : s.pulseDiv = s'.pulseDiv
  last : s.pbuf[50] = s'.pbuf[50]
  sampled : ∀ (k : Nat) (_ : k < 24), s.pbuf[2 * k + 2] = s'.pbuf[2 * k + 2]

theorem DecodeInputsAgree.frameValid_iff {s s' : State} (h : DecodeInputsAgree s s') :
    FrameValid s ↔ FrameValid s' := by
  simp only [FrameValid, h.plen, h.pulseDiv, h.last]

theorem DecodeInputsAgree.runDecode_answers {s s' : State} (h : DecodeInputsAgree s s') :
    (runDecode s).status = (runDecode s').status ∧ (runDecode s).result = (runDecode s').result := by
  by_cases hValid : FrameValid s
  · rw [runDecode_of_valid hValid, runDecode_of_valid (h.frameValid_iff.1 hValid), bits_congr h.sampled]
    exact ⟨rfl, rfl⟩
  · rw [runDecode_of_not_valid hValid, runDecode_of_not_valid (mt h.frameValid_iff.2 hValid)]
    exact ⟨rfl, rfl⟩

/-! ## The cause of an error (R190 to R195) -/

/-- ENCODE's word lacks an operand (R192). -/
def LacksOperand (w : Word) : Prop :=
  w &&& 0xF8000000#32 = 0x30000000#32 ∧ (w.getLsbD 26 = false ∨ w.getLsbD 25 = false)

/-- VALIDATE or DECODE meets an invalid frame (R191). -/
def MeetsInvalidFrame (w : Word) (s : State) : Prop := (w = 0x10000000#32 ∨ w = 0x20000000#32) ∧ ¬FrameValid s

theorem LacksOperand.isLegalWord {w : Word} (h : LacksOperand w) : IsLegalWord w :=
  .inr (.inr ((and_encodeMask_iff w).1 h.1))

theorem MeetsInvalidFrame.isLegalWord {w : Word} {s : State} (h : MeetsInvalidFrame w s) : IsLegalWord w :=
  h.1.imp_right .inl

/-- ENCODE's words are neither of the two that take a verdict. -/
theorem not_meetsInvalidFrame_of_encode {w : Word} (h : w &&& 0xF8000000#32 = 0x30000000#32) (s : State) :
    ¬MeetsInvalidFrame w s := by
  rintro ⟨rfl | rfl, -⟩ <;> exact absurd h (by decide)

theorem not_illegalByR65_of_legal {w : Word} (h : IsLegalWord w) : ¬IllegalByR65 w := by
  rwa [illegalByR65_iff, not_not]

theorem lacksOperand_iff_of_encode {w : Word} (h : w &&& 0xF8000000#32 = 0x30000000#32) :
    LacksOperand w ↔ ¬(cmdUP w = true ∧ cmdSP w = true) := by
  rw [LacksOperand, and_iff_right h, not_and_or, Bool.not_eq_true, Bool.not_eq_true, cmdUP, cmdSP]

/-- `e` is the error of the word `w` in the state `s`: each of the three by its own cause, none without one (R190). -/
structure IsErrorOf (w : Word) (s : State) (e : ErrCode) : Prop where
  illegal : e = .illegalCommand ↔ IllegalByR65 w
  missing : e = .missingField ↔ LacksOperand w
  invalid : e = .invalidFrame ↔ MeetsInvalidFrame w s

section IsErrorOf

variable {w : Word} {s : State}

theorem isErrorOf_illegalCommand (h : ¬IsLegalWord w) : IsErrorOf w s .illegalCommand where
  illegal := iff_of_true rfl ((illegalByR65_iff w).2 h)
  missing := iff_of_false nofun (mt LacksOperand.isLegalWord h)
  invalid := iff_of_false nofun (mt MeetsInvalidFrame.isLegalWord h)

theorem isErrorOf_missingField (h : LacksOperand w) : IsErrorOf w s .missingField where
  illegal := iff_of_false nofun (not_illegalByR65_of_legal h.isLegalWord)
  missing := iff_of_true rfl h
  invalid := iff_of_false nofun (not_meetsInvalidFrame_of_encode h.1 s)

theorem isErrorOf_invalidFrame (h : MeetsInvalidFrame w s) : IsErrorOf w s .invalidFrame where
  illegal := iff_of_false nofun (not_illegalByR65_of_legal h.isLegalWord)
  missing := iff_of_false nofun fun hLacks => not_meetsInvalidFrame_of_encode hLacks.1 s h
  invalid := iff_of_true rfl h

theorem isErrorOf_none (hLegal : IsLegalWord w) (hOperands : ¬LacksOperand w) (hFrame : ¬MeetsInvalidFrame w s) :
    IsErrorOf w s .none where
  illegal := iff_of_false nofun (not_illegalByR65_of_legal hLegal)
  missing := iff_of_false nofun hOperands
  invalid := iff_of_false nofun hFrame

end IsErrorOf

/-- The state `t` carries in STATUS.ERR the error of the word `w` run in `s`. -/
def ReportsErrorOf (w : Word) (s t : State) : Prop := ∃ e, IsErrorOf w s e ∧ statusERR t.status = e.code

section ReportsErrorOf

variable {w : Word} {s : State}

theorem reportsErrorOf_complete (h : IsErrorOf w s .none) (op : BitVec 4) (vok : Bool) (t : State) :
    ReportsErrorOf w s (complete op vok t) :=
  ⟨.none, h, statusWord_ERR op .none vok⟩

theorem reportsErrorOf_raiseError {e : ErrCode} (h : IsErrorOf w s e) (op : BitVec 4) (t : State) :
    ReportsErrorOf w s (raiseError op e t) :=
  ⟨e, h, statusWord_ERR op e false⟩

end ReportsErrorOf

theorem runValidate_reportsError (s : State) : ReportsErrorOf 0x10000000#32 s (runValidate s) := by
  obtain ⟨hValid, h⟩ | ⟨hInvalid, h⟩ := runValidate_eq s <;> rw [h]
  · have hLacks : ¬LacksOperand 0x10000000#32 := fun hLacks => absurd hLacks.1 (by decide)
    exact reportsErrorOf_complete (isErrorOf_none (.inl rfl) hLacks fun hFrame => hFrame.2 hValid) _ _ _
  · exact reportsErrorOf_raiseError (isErrorOf_invalidFrame ⟨.inl rfl, hInvalid⟩) _ _

theorem runDecode_reportsError (s : State) : ReportsErrorOf 0x20000000#32 s (runDecode s) := by
  obtain ⟨hValid, h⟩ | ⟨hInvalid, h⟩ := runDecode_eq s <;> rw [h]
  · have hLacks : ¬LacksOperand 0x20000000#32 := fun hLacks => absurd hLacks.1 (by decide)
    exact reportsErrorOf_complete (isErrorOf_none (.inr (.inl rfl)) hLacks fun hFrame => hFrame.2 hValid) _ _ _
  · exact reportsErrorOf_raiseError (isErrorOf_invalidFrame ⟨.inr rfl, hInvalid⟩) _ _

theorem runEncode_reportsError {w : Word} (h : w &&& 0xF8000000#32 = 0x30000000#32) (st : DevState) (uc : UnitCode)
    (s : State) : ReportsErrorOf w s (runEncode (cmdUP w) (cmdSP w) st uc s) := by
  have hLacks := lacksOperand_iff_of_encode h
  obtain ⟨hPresent, e⟩ | ⟨hMissing, e⟩ := runEncode_eq (cmdUP w) (cmdSP w) st uc s <;> rw [e]
  · have hLegal : IsLegalWord w := .inr (.inr ((and_encodeMask_iff w).1 h))
    exact reportsErrorOf_complete
      (isErrorOf_none hLegal (fun hl => hLacks.1 hl hPresent) (not_meetsInvalidFrame_of_encode h s)) _ _ _
  · exact reportsErrorOf_raiseError (isErrorOf_missingField (hLacks.2 hMissing)) _ _

/-- Every arm of R67 reports the error of its word. -/
theorem runCommandWord_reportsError (w : Word) (s : State) : ReportsErrorOf w s (runCommandWord w s) := by
  by_cases hLegal : IsLegalWord w
  · obtain rfl | rfl | hEncode := hLegal
    · exact runValidate_reportsError s
    · exact runDecode_reportsError s
    · rw [runCommandWord_of_encode hEncode.1 hEncode.2]
      exact runEncode_reportsError ((and_encodeMask_iff w).2 hEncode) _ _ s
  · rw [runCommandWord_of_not_legal hLegal]
    exact reportsErrorOf_raiseError (isErrorOf_illegalCommand hLegal) _ _

theorem ErrCode.code_inj (e e' : ErrCode) : e.code = e'.code ↔ e = e' := by
  cases e <;> cases e' <;> decide

theorem ErrCode.code_toNat_le (e : ErrCode) : e.code.toNat ≤ 3 := by
  cases e <;> decide

/-! ## The obligations -/

/-- Settles O52: the command leaves the error of its word (`runCommandWord_reportsError`), which has one cause. -/
theorem errorCodeNamesItsCause : Obligations.ErrorCodeNamesItsCause := by
  unfold Obligations.ErrorCodeNamesItsCause
  intro i w s hWord
  obtain ⟨e, hError, hERR⟩ := runCommandWord_reportsError w s
  refine ⟨_, exec_of_commandWord hWord s, ?_⟩
  rw [hERR]
  exact ⟨(e.code_inj .illegalCommand).trans hError.illegal, (e.code_inj .missingField).trans hError.missing,
    (e.code_inj .invalidFrame).trans hError.invalid, e.code_toNat_le⟩

/-- Settles O36: the states agree on the verdict and on every sampled bit, so DECODE takes one branch in both. -/
theorem decodeReadsOnlySampledEntries : Obligations.DecodeReadsOnlySampledEntries := by
  unfold Obligations.DecodeReadsOnlySampledEntries
  intro s s' t t' hPlen hDiv hLast hSampled ht ht'
  obtain rfl : runDecode s = t := Host.Outcome.next.inj ht
  obtain rfl : runDecode s' = t' := Host.Outcome.next.inj ht'
  exact DecodeInputsAgree.runDecode_answers ⟨hPlen, hDiv, hLast, hSampled⟩

/-- Settles O2: length 0 is not the length of a captured frame. -/
theorem zeroLengthGivesFalseVerdict : Obligations.ZeroLengthGivesFalseVerdict := by
  unfold Obligations.ZeroLengthGivesFalseVerdict
  intro s hPlen
  exact exec_validate_decode_of_not_valid (not_frameValid_of_plen_ne (by rw [hPlen]; decide))

/-- Settles O45: ENCODE leaves length 52, which is not the length of a captured frame either. -/
theorem encodedTrainIsNotAValidCapture : Obligations.EncodedTrainIsNotAValidCapture := by
  unfold Obligations.EncodedTrainIsNotAValidCapture
  intro u st s t ht
  rw [exec_encode_of_present ⟨rfl, rfl⟩] at ht
  cases ht
  have hLen : (52#32 : Word).toNat ≠ 51 := by decide
  exact exec_validate_decode_of_not_valid (not_frameValid_of_plen_ne hLen)

end Sys2Proof.Machine
end
